-- ==== Sys2Proof/Config.lean ====
section
/-! DEFINITION. What is fixed for the machine: the constants of R5 and the value a parameter of R6 has after reset. -/

namespace Sys2Proof

/-- `FIELD_MAX` of R5: the largest legal value of an opcode element and of an operand element. -/
def Config.fieldMax : Nat := 7

/-- `ILEN` of R5: the program elements of one instruction. -/
def Config.ilen : Nat := 2

/-- The opcodes whose operand is a combo operand (R50). -/
def Config.comboOpcodes : List Nat := [0, 2, 5, 6, 7]

/-- `STEP_CEILING` as it stands in `State.reset` (R6 leaves it open; none means no ceiling).
DESIGN CHOICE, unsafe: notes/assumptions/2.md.  The ceiling is a field of `State`, so a statement
about every state is about every ceiling; nothing but `State.reset` uses this constant. -/
def Config.stepCeilingAtReset : Option Nat := none

end Sys2Proof
end

