-- ==== Sys2Proof/Word.lean ====
section
/-! DEFINITION. The value types of the interpreter: a register word, a program element, an output value. -/

namespace Sys2Proof

/-- A word: an unsigned integer of `XLEN = 64` bits, bit 0 least significant (R5, R9). -/
abbrev Word := BitVec 64

/-- A program element as stored: an unsigned integer of `ELEM_W` bits, at its default of 8 (R6, R20). -/
abbrev Elem := BitVec 8

/-- An output value: an unsigned integer of `OUTW = 3` bits (R5, R9, R21). -/
abbrev OutVal := BitVec 3

end Sys2Proof
end

