-- ==== Sys2Proof/Syntax.lean ====
section
/-! DEFINITION. The instructions: one constructor per row of spec/opcode_table.json (R53, R54, R57). -/

namespace Sys2Proof

/-- The three general registers `x[0] = A`, `x[1] = B`, `x[2] = C` (R11, R16). -/
inductive Reg where
  | A
  | B
  | C
deriving DecidableEq, Repr

/-- A combo operand as decoded: a literal (legal when at most 3) or the register whose value is read
when the instruction executes (R52, R53). -/
inductive ComboSrc where
  | lit (n : Nat)
  | reg (r : Reg)
deriving DecidableEq, Repr

/-- The eight instructions of R53, and the five illegal words of R57, each a row of the table named
ILLEGAL: the pair of a combo opcode with the operand 7. -/
inductive Instr where
  /-- Opcode 0, shift-right-into-A (R79). -/
  | shra (c : ComboSrc)
  /-- Opcode 1, xor-B-literal (R82). -/
  | xorl (n : Nat)
  /-- Opcode 2, mod8-into-B (R83). -/
  | mod8 (c : ComboSrc)
  /-- Opcode 3, jump-if-A-nonzero; the operand is an absolute element index (R85). -/
  | jnz (t : Nat)
  /-- Opcode 4, xor-B-C; the operand is kept so that the pair can be encoded again, and is not used (R84). -/
  | xorc (n : Nat)
  /-- Opcode 5, emit (R88). -/
  | emit (c : ComboSrc)
  /-- Opcode 6, shift-right-into-B (R80). -/
  | shrb (c : ComboSrc)
  /-- Opcode 7, shift-right-into-C (R81). -/
  | shrc (c : ComboSrc)
  /-- The illegal pair `(0, 7)` (R57). -/
  | illegalShra
  /-- The illegal pair `(2, 7)` (R57). -/
  | illegalMod8
  /-- The illegal pair `(5, 7)` (R57). -/
  | illegalEmit
  /-- The illegal pair `(6, 7)` (R57). -/
  | illegalShrb
  /-- The illegal pair `(7, 7)` (R57). -/
  | illegalShrc
deriving DecidableEq, Repr

/-- Whether the instruction is one of the five illegal words of R57. -/
def Instr.isIllegal : Instr → Bool
  | .illegalShra => true
  | .illegalMod8 => true
  | .illegalEmit => true
  | .illegalShrb => true
  | .illegalShrc => true
  | .shra _ => false
  | .xorl _ => false
  | .mod8 _ => false
  | .jnz _ => false
  | .xorc _ => false
  | .emit _ => false
  | .shrb _ => false
  | .shrc _ => false

end Sys2Proof
end

