-- ==== Sys2Proof/WellFormed.lean ====
section
/-! DEFINITION. Which instructions have an encoding: the ranges R53 gives each constructor's field. -/

namespace Sys2Proof

/-- A combo literal is 0 to 3 (R52, R53). -/
def ComboSrc.WellFormed : ComboSrc → Bool
  | .lit n => decide (n ≤ 3)
  | .reg _ => true

/-- A literal, a target and an ignored operand are field values, 0 to 7 (R50, R53). -/
def Instr.WellFormed : Instr → Bool
  | .shra c => c.WellFormed
  | .xorl n => decide (n ≤ Config.fieldMax)
  | .mod8 c => c.WellFormed
  | .jnz t => decide (t ≤ Config.fieldMax)
  | .xorc n => decide (n ≤ Config.fieldMax)
  | .emit c => c.WellFormed
  | .shrb c => c.WellFormed
  | .shrc c => c.WellFormed
  | .illegalShra => true
  | .illegalMod8 => true
  | .illegalEmit => true
  | .illegalShrb => true
  | .illegalShrc => true

end Sys2Proof
end

