-- ==== Sys2Proof/Decode.lean ====
section
/-! DEFINITION. The instruction decoder, total on any two elements and rejecting by name (R46, R47, R50 to R57),
the encoder, and the 6-bit instruction word of R48. -/

namespace Sys2Proof

/-- Why a pair is no instruction of the table: an element above 7 (R55, R56). -/
inductive DecodeError where
  /-- The opcode element is 8 or more (R55). -/
  | opcodeRange
  /-- The opcode is legal and the operand element is 8 or more (R56). -/
  | operandRange
deriving DecidableEq, Repr

/-- The combo operand a field value denotes; 7 and above denote none (R52). -/
def comboSrc : Nat → Option ComboSrc
  | 0 => some (.lit 0)
  | 1 => some (.lit 1)
  | 2 => some (.lit 2)
  | 3 => some (.lit 3)
  | 4 => some (.reg .A)
  | 5 => some (.reg .B)
  | 6 => some (.reg .C)
  | _ => none

/-- The instruction of a combo opcode: `mk` of the operand, or the opcode's illegal word for 7 (R57). -/
def decodeCombo (mk : ComboSrc → Instr) (illegal : Instr) (operand : Nat) : Instr :=
  match comboSrc operand with
  | some c => mk c
  | none => illegal

/-- The range check of R56 on the operand element, made under every legal opcode. -/
def withOperand (operand : Nat) (i : Instr) : Except DecodeError Instr :=
  if operand ≤ Config.fieldMax then .ok i else .error .operandRange

/-- `decode` of R53 over the opcode map of R54: the whole value of each element counts (R47). -/
def decode (opcode operand : Nat) : Except DecodeError Instr :=
  match opcode with
  | 0 => withOperand operand (decodeCombo .shra .illegalShra operand)
  | 1 => withOperand operand (.xorl operand)
  | 2 => withOperand operand (decodeCombo .mod8 .illegalMod8 operand)
  | 3 => withOperand operand (.jnz operand)
  | 4 => withOperand operand (.xorc operand)
  | 5 => withOperand operand (decodeCombo .emit .illegalEmit operand)
  | 6 => withOperand operand (decodeCombo .shrb .illegalShrb operand)
  | 7 => withOperand operand (decodeCombo .shrc .illegalShrc operand)
  | _ => .error .opcodeRange

/-- The operand field of a combo operand (R52): a register `x[j]` is the value `j + 4`. -/
def encodeCombo : ComboSrc → Nat
  | .lit n => n
  | .reg .A => 4
  | .reg .B => 5
  | .reg .C => 6

/-- The (opcode, operand) pair of an instruction (R46, R53, R54, R57). -/
def encode : Instr → Nat × Nat
  | .shra c => (0, encodeCombo c)
  | .xorl n => (1, n)
  | .mod8 c => (2, encodeCombo c)
  | .jnz t => (3, t)
  | .xorc n => (4, n)
  | .emit c => (5, encodeCombo c)
  | .shrb c => (6, encodeCombo c)
  | .shrc c => (7, encodeCombo c)
  | .illegalShra => (0, 7)
  | .illegalMod8 => (2, 7)
  | .illegalEmit => (5, 7)
  | .illegalShrb => (6, 7)
  | .illegalShrc => (7, 7)

/-- The 6-bit instruction word of R48: the opcode in bits 5 to 3, the operand in bits 2 to 0. -/
def instrWord (i : Instr) : Nat :=
  (encode i).1 * 8 + (encode i).2

/-- The two elements of the table word `w` (R48).  A word of more than 6 bits keeps an opcode above 7,
so that it is rejected as R47 asks; the opcode element stops at the largest an element holds. -/
def tableElements (w : Nat) : Elem × Elem :=
  (BitVec.ofNat 8 (min (w / 8) 255), BitVec.ofNat 8 (w % 8))

/-- What the decoder reads from the pair whose instruction word is `w`.  The table gives every row the
same two elements, so the number of bits plays no part. -/
def decodeTableWord (_nbits w : Nat) : Option Instr :=
  match decode (tableElements w).1.toNat (tableElements w).2.toNat with
  | .ok i => some i
  | .error _ => none

end Sys2Proof
end

