-- ==== Sys2Proof/Machine/State.lean ====
section
/-! DEFINITION. The state of the interpreter (R15, R20, R23, R24, R28), its values after power-on reset
(R29, R109), and the reasons a step can stop. -/

namespace Sys2Proof.Machine

open Sys2Proof

/-- The sub-causes of `MalformedProgram` (R93). -/
inductive Malformed where
  /-- The program has odd length (R58). -/
  | oddLength
  /-- An element at an even index is 8 or more (R55). -/
  | opcodeRange
  /-- An element at an odd index is 8 or more (R56). -/
  | operandRange
  /-- The operand of a combo opcode is 7 (R57). -/
  | comboReserved
deriving DecidableEq, Repr

/-- Why a run ended in a fault, with what R92 records beside the frozen state. -/
inductive Cause where
  /-- The program breaks `WF`; the element index recorded is that of R93. -/
  | malformedProgram (sub : Malformed) (index : Nat)
  /-- A jump to the odd target was taken at the index `pc` (R86, R94). -/
  | misalignedJump (pc target : Nat)
  /-- `STEP_CEILING` instructions were executed and the run had not ended (R95). -/
  | stepCeiling
deriving DecidableEq, Repr

/-- Where the run stands: the one control and status register, which only the host reads (R23). -/
inductive Status where
  /-- No run has started since reset. -/
  | idle
  /-- A run has started and has neither halted nor faulted. -/
  | running
  /-- The run ended normally. -/
  | halted
  /-- The run ended in a fault. -/
  | faulted (cause : Cause)
deriving DecidableEq, Repr

/-- Program memory as data: the elements that differ from `Memory.unlisted`, by rising index. -/
abbrev Memory := List Host.Cell

/-- What an index that is not listed reads as.  The host writes every element below `LEN` (R112) and
nothing reads at or above it (R39), so the value is a matter of form: notes/assumptions/4.md. -/
def Memory.unlisted : Elem := 0

/-- The whole machine.  `pm`, `len` and `ceiling` are what R28 calls parameters of the step relation:
they stand here because a step takes the state alone, and no step changes them. -/
structure State where
  /-- Register A (R16). -/
  a : Word
  /-- Register B (R16). -/
  b : Word
  /-- Register C (R16). -/
  c : Word
  /-- The program counter: the element index of the next opcode (R18). -/
  pc : Nat
  /-- The output sequence, first emitted value first (R21). -/
  out : List OutVal
  /-- The status of the run (R23). -/
  status : Status
  /-- The instructions executed in this run (R24). -/
  steps : Nat
  /-- Program memory (R20). -/
  pm : Memory
  /-- `LEN`: the number of elements of the program (R6, R20). -/
  len : Nat
  /-- Whether a program has been loaded since reset, on which `Start` depends (R113). -/
  loaded : Bool
  /-- `STEP_CEILING`: none means no ceiling (R6). -/
  ceiling : Option Nat
deriving DecidableEq, Repr

/-- Why a step has no next state. -/
inductive Fault where
  /-- Raised by `turn` in `Idle`: no step is defined (R109).  Safe: the machine does nothing. -/
  | noStepIdle
  /-- Raised by `turn` in `Halted`: no step is defined (R23).  Safe: only a start leaves the state. -/
  | noStepHalted
  /-- Raised by `turn` in `Faulted`: no step is defined (R96).  Safe: only a start leaves the state. -/
  | noStepFaulted (cause : Cause)
  /-- Raised by `fetchPair` at an odd pc, where R37 executes nothing; no run reaches it (R19).  Safe:
  notes/assumptions/5.md. -/
  | misalignedFetch
  /-- Raised by `fetchPair` when the operand would lie outside the program, where `MemRead` is not
  defined (R12); no run reaches it (R39).  Safe: notes/assumptions/5.md. -/
  | fetchOutsideProgram
deriving DecidableEq, Repr

/-- Why the model gives an action no meaning. -/
inductive Refusal where
  /-- Raised by an arm of `exec` for an instruction without a meaning.  Safe; no arm raises it. -/
  | notModelled (mnemonic : String)
  /-- Raised by `hostLoad` and `hostStart` while a run is in progress (R113).  Safe. -/
  | hostWhileRunning
  /-- Raised by `hostStart` when no program has been loaded since reset (R113).  Safe under the host
  duty of notes/assumptions/8.md. -/
  | noProgramLoaded
  /-- Raised by the host's reads of anything but the status in `Idle` and `Running` (R30, R113).  Safe. -/
  | readNotAllowed
deriving DecidableEq, Repr

/-- The machine after power-on reset with the ceiling `n` (R29, R109): idle, with no program.
The registers are unspecified there; they are zero here by DESIGN CHOICE, notes/assumptions/1.md. -/
def State.resetWith (n : Option Nat) : State where
  a := 0
  b := 0
  c := 0
  pc := 0
  out := []
  status := .idle
  steps := 0
  pm := []
  len := 0
  loaded := false
  ceiling := n

/-- The machine after power-on reset, its ceiling as `Config.stepCeilingAtReset` says. -/
def State.reset : State := State.resetWith Config.stepCeilingAtReset

end Sys2Proof.Machine
end

