-- ==== Sys2Proof/Machine/Ops.lean ====
section
/-! DEFINITION. The named operations over registers, program memory and the run: every meaning is made of them. -/

namespace Sys2Proof.Machine

open Sys2Proof

/-- A read of a register `x[r]` (R11, R16). -/
def State.reg (s : State) : Reg → Word
  | .A => s.a
  | .B => s.b
  | .C => s.c

/-- A write of a register `x[r]` (R11, R16). -/
def State.setReg (s : State) (r : Reg) (v : Word) : State :=
  match r with
  | .A => { s with a := v }
  | .B => { s with b := v }
  | .C => { s with c := v }

/-- The element at an index, in the canonical form. -/
def Memory.read : Memory → Nat → Elem
  | [], _ => Memory.unlisted
  | (k, v) :: rest, i => if i = k then v else Memory.read rest i

/-- Places an element at an index and keeps the canonical form: an element that an unlisted index
reads as is not listed. -/
def Memory.write : Memory → Nat → Elem → Memory
  | [], i, v => if v = Memory.unlisted then [] else [(i, v)]
  | (k, w) :: rest, i, v =>
    if i < k then
      if v = Memory.unlisted then (k, w) :: rest else (i, v) :: (k, w) :: rest
    else if i = k then
      if v = Memory.unlisted then rest else (i, v) :: rest
    else (k, w) :: Memory.write rest i v

/-- The canonical form from an index on: indices rise strictly and no entry is the unlisted value. -/
def Memory.wfFrom : Nat → Memory → Bool
  | _, [] => true
  | lo, (k, v) :: rest => decide (lo ≤ k) && decide (v ≠ Memory.unlisted) && Memory.wfFrom (k + 1) rest

/-- The canonical form. -/
def Memory.wf (m : Memory) : Bool := Memory.wfFrom 0 m

/-- The memory that holds the elements of a list at the indices from `i` on. -/
def Memory.ofElemsFrom : Nat → List Elem → Memory
  | _, [] => []
  | i, e :: es => Memory.write (Memory.ofElemsFrom (i + 1) es) i e

/-- The memory that holds a program from index 0 (R32, R112). -/
def Memory.ofElems (p : List Elem) : Memory := Memory.ofElemsFrom 0 p

/-- `PM[i]`: defined below `LEN` only (R31, R39). -/
def State.readElem (s : State) (i : Nat) : Option Elem :=
  if i < s.len then some (s.pm.read i) else none

/-- The program as the sequence `PM[0] .. PM[LEN - 1]` (R20, R32). -/
def State.program (s : State) : List Elem :=
  (List.range s.len).map s.pm.read

/-- `MemRead(addr, n)` of R12: the `n` elements from `addr` on, defined when they all lie in the program. -/
def State.memRead (s : State) (addr n : Nat) : Option (List Elem) :=
  if addr + n ≤ s.len then some ((List.range n).map (fun j => s.pm.read (addr + j))) else none

/-- Ends an executed instruction with the pc at `t`, counting one step (R72, R73). -/
def State.retireAt (s : State) (t : Nat) : State :=
  { s with pc := t, steps := s.steps + 1 }

/-- Ends an executed instruction with `pc <- pc + 2` (R72, R73). -/
def State.advance (s : State) : State :=
  s.retireAt (s.pc + Config.ilen)

/-- Taking a fault, `raise` of R13: the status says why, and everything else stays as it was before the
step (R94, R100).  There is no handler and no return (R102). -/
def State.raise (s : State) (cause : Cause) : State :=
  { s with status := .faulted cause }

/-- The normal end of a run: everything but the status keeps its value (R67). -/
def State.halt (s : State) : State :=
  { s with status := .halted }

end Sys2Proof.Machine
end

