-- ==== Sys2Proof/Machine/Cycle.lean ====
section
/-! DEFINITION. What a step does before it executes an instruction: the halt test, the ceiling test, the fetch
and the decode, in that order (R66, R99). -/

namespace Sys2Proof.Machine

open Sys2Proof

/-- The comparison of the ceiling test (R68). -/
def State.ceilingReached (s : State) : Bool := decide (s.ceiling = some s.steps)

/-- The fetch: the opcode at `pc`, the operand at `pc + 1` (R36, R69), by `MemRead(pc, 2)`.
At an odd pc nothing is fetched (R37). -/
def fetchPair (s : State) : Except Fault (Elem × Elem) :=
  if s.pc % 2 = 1 then .error .misalignedFetch
  else
    match s.memRead s.pc Config.ilen with
    | some [opcode, operand] => .ok (opcode, operand)
    | _ => .error .fetchOutsideProgram

/-- The sub-cause and the index that decoding the pair at `i` raises (R53, R93). -/
def decodeViolation (e : DecodeError) (i : Nat) : Malformed × Nat :=
  match e with
  | .opcodeRange => (.opcodeRange, i)
  | .operandRange => (.operandRange, i + 1)

/-- What one step comes to before execution: it ends with an outcome, or it executes an instruction. -/
inductive Turn where
  | ends (o : Host.Outcome State Fault Refusal)
  | executes (i : Instr)

/-- The turn at a fetched pair: the decode of R70. -/
def decodeTurn (s : State) (opcode operand : Elem) : Turn :=
  match decode opcode.toNat operand.toNat with
  | .error e =>
    .ends (.next (s.raise (.malformedProgram (decodeViolation e s.pc).1 (decodeViolation e s.pc).2)))
  | .ok i => .executes i

/-- Lines 1 to 4 of the step of R66, in `Running`. -/
def runningTurn (s : State) : Turn :=
  if s.len ≤ s.pc then .ends (.next s.halt)
  else if s.ceilingReached then .ends (.next (s.raise .stepCeiling))
  else
    match fetchPair s with
    | .error f => .ends (.fault f)
    | .ok (opcode, operand) => decodeTurn s opcode operand

/-- A step is defined in `Running` only (R23, R66, R109). -/
def turn (s : State) : Turn :=
  match s.status with
  | .idle => .ends (.fault .noStepIdle)
  | .running => runningTurn s
  | .halted => .ends (.fault .noStepHalted)
  | .faulted cause => .ends (.fault (.noStepFaulted cause))

/-- Places the pair of the table word `w` where the next step fetches (R48), with what that fetch takes:
a program that reaches over the pair, and a run in progress.  It stands for the host's `Load` and
`Start` (notes/assumptions/9.md); the pc, the registers, the output, the count and the ceiling are kept. -/
def placeTableWord (s : State) (w : Nat) : State :=
  { s with
    pm := Memory.write (Memory.write s.pm s.pc (tableElements w).1) (s.pc + 1) (tableElements w).2
    len := max s.len (s.pc + Config.ilen)
    loaded := true
    status := .running }

end Sys2Proof.Machine
end

