-- ==== Sys2Proof/Machine/Alu.lean ====
section
/-! DEFINITION. The three operations of the ALU and the two changes of width (R2, R10, R75, R76). -/

namespace Sys2Proof.Machine

open Sys2Proof

/-- `zext_64` of R10: the word whose value is the field value. -/
def zext64 (f : Nat) : Word := BitVec.ofNat 64 f

/-- `trunc_3` of R10: bits 2 to 0 of a word. -/
def trunc3 (v : Word) : OutVal := BitVec.ofNat 3 v.toNat

/-- `v >>u n` of R75: the amount is the whole word, and 64 or more gives 0. -/
def shiftRight (v n : Word) : Word :=
  if n.toNat ≤ 63 then BitVec.ofNat 64 (v.toNat / 2 ^ n.toNat) else 0

/-- `v ^ w` of R76: exclusive OR over all 64 bits. -/
def xorWord (v w : Word) : Word := v ^^^ w

/-- `v & 7` of R76. -/
def and7 (v : Word) : Word := v &&& 7

end Sys2Proof.Machine
end

