-- ==== Sys2Proof/Machine/Operands.lean ====
section
/-! DEFINITION. The operand forms that reach a meaning: the combo operand and the literal (R50, R51, R52, R71). -/

namespace Sys2Proof.Machine

open Sys2Proof

/-- `combo` of R52, against the register file as it stands when the instruction executes (R71). -/
def combo (c : ComboSrc) (s : State) : Word :=
  match c with
  | .lit n => zext64 n
  | .reg r => s.reg r

/-- The literal operand as a word: its own value, zero-extended (R51). -/
def literal (n : Nat) : Word := zext64 n

end Sys2Proof.Machine
end

