-- ==== Sys2Proof/Machine/Emit.lean ====
section
/-! DEFINITION. The output instruction, opcode 5, and the packed view of the output (R88, R89). -/

namespace Sys2Proof.Machine

open Sys2Proof

/-- `out <- out ++ [v]`: the only operation an instruction has on the output (R21). -/
def State.append (s : State) (v : OutVal) : State :=
  { s with out := s.out ++ [v] }

/-- `EMIT` (R88). -/
def execEmit (c : ComboSrc) (s : State) : Host.Outcome State Fault Refusal :=
  .next (s.append (trunc3 (and7 (combo c s)))).advance

/-- `OUTBITS` of R89: the value at position `i` of the output stands at bits `3i + 2` to `3i`. -/
def outBits : List OutVal → Nat
  | [] => 0
  | v :: vs => v.toNat + 8 * outBits vs

end Sys2Proof.Machine
end

