-- ==== Sys2Proof/Machine/Illegal.lean ====
section
/-! DEFINITION. The five illegal words, rows ILLEGAL of the table: a combo opcode with the operand 7 (R57). -/

namespace Sys2Proof.Machine

/-- What decoding an illegal word raises: `MalformedProgram(ComboReserved)` at the index of the operand
(R57, R70, R93). -/
def raiseComboReserved (s : State) : State :=
  s.raise (.malformedProgram .comboReserved (s.pc + 1))

/-- The pair `(0, 7)` (R57). -/
def execIllegalShra (s : State) : Host.Outcome State Fault Refusal :=
  .next (raiseComboReserved s)

/-- The pair `(2, 7)` (R57). -/
def execIllegalMod8 (s : State) : Host.Outcome State Fault Refusal :=
  .next (raiseComboReserved s)

/-- The pair `(5, 7)` (R57). -/
def execIllegalEmit (s : State) : Host.Outcome State Fault Refusal :=
  .next (raiseComboReserved s)

/-- The pair `(6, 7)` (R57). -/
def execIllegalShrb (s : State) : Host.Outcome State Fault Refusal :=
  .next (raiseComboReserved s)

/-- The pair `(7, 7)` (R57). -/
def execIllegalShrc (s : State) : Host.Outcome State Fault Refusal :=
  .next (raiseComboReserved s)

end Sys2Proof.Machine
end

