-- ==== Sys2Proof/Machine/Flags.lean ====
section
/-! DEFINITION. The machine has no flags (R25); what stands here is its one condition, the test of the jump. -/

namespace Sys2Proof.Machine

/-- `A != 0`, over all 64 bits of the register (R25, R85). -/
def aNonzero (s : State) : Bool := decide (s.a ≠ 0)

end Sys2Proof.Machine
end

