-- ==== Sys2Proof/Machine/Jump.lean ====
section
/-! DEFINITION. The control transfer, opcode 3. -/

namespace Sys2Proof.Machine

open Sys2Proof

/-- `JNZ` (R85): taken when A is nonzero, to the literal target; a taken jump to an odd target raises
`MisalignedJump` (R86). -/
def execJnz (t : Nat) (s : State) : Host.Outcome State Fault Refusal :=
  if aNonzero s then
    if t % 2 = 1 then .next (s.raise (.misalignedJump s.pc t)) else .next (s.retireAt t)
  else .next s.advance

end Sys2Proof.Machine
end

