-- ==== Sys2Proof/Machine/Logic.lean ====
section
/-! DEFINITION. The logic instructions, opcodes 1, 2 and 4: each writes register B and nothing else. -/

namespace Sys2Proof.Machine

open Sys2Proof

/-- `XORL` (R82): the operand is a literal, never a register. -/
def execXorl (n : Nat) (s : State) : Host.Outcome State Fault Refusal :=
  .next (s.setReg .B (xorWord s.b (literal n))).advance

/-- `MOD8` (R83). -/
def execMod8 (c : ComboSrc) (s : State) : Host.Outcome State Fault Refusal :=
  .next (s.setReg .B (and7 (combo c s))).advance

/-- `XORC` (R84): the operand has no effect. -/
def execXorc (_n : Nat) (s : State) : Host.Outcome State Fault Refusal :=
  .next (s.setReg .B (xorWord s.b s.c)).advance

end Sys2Proof.Machine
end

