-- ==== Sys2Proof/Machine/Shift.lean ====
section
/-! DEFINITION. The shift instructions, opcodes 0, 6 and 7: register A shifted right by a combo operand. -/

namespace Sys2Proof.Machine

open Sys2Proof

/-- `x[d] <- A >>u combo(c)`, all reads before the write (R79, R80, R81, R120). -/
def shiftInto (d : Reg) (c : ComboSrc) (s : State) : State :=
  (s.setReg d (shiftRight s.a (combo c s))).advance

/-- `SHRA` (R79). -/
def execShra (c : ComboSrc) (s : State) : Host.Outcome State Fault Refusal :=
  .next (shiftInto .A c s)

/-- `SHRB` (R80): the value shifted is A, not B. -/
def execShrb (c : ComboSrc) (s : State) : Host.Outcome State Fault Refusal :=
  .next (shiftInto .B c s)

/-- `SHRC` (R81): the value shifted is A, not C. -/
def execShrc (c : ComboSrc) (s : State) : Host.Outcome State Fault Refusal :=
  .next (shiftInto .C c s)

end Sys2Proof.Machine
end

