-- ==== Sys2Proof/Machine/Dispatch.lean ====
section
/-! DEFINITION. `execute` of R72: one arm per instruction. -/

namespace Sys2Proof.Machine

open Sys2Proof

def exec (i : Instr) (s : State) : Host.Outcome State Fault Refusal :=
  match i with
  | .shra c => Sys2Proof.Machine.execShra c s
  | .xorl n => Sys2Proof.Machine.execXorl n s
  | .mod8 c => Sys2Proof.Machine.execMod8 c s
  | .jnz t => Sys2Proof.Machine.execJnz t s
  | .xorc n => Sys2Proof.Machine.execXorc n s
  | .emit c => Sys2Proof.Machine.execEmit c s
  | .shrb c => Sys2Proof.Machine.execShrb c s
  | .shrc c => Sys2Proof.Machine.execShrc c s
  | .illegalShra => Sys2Proof.Machine.execIllegalShra s
  | .illegalMod8 => Sys2Proof.Machine.execIllegalMod8 s
  | .illegalEmit => Sys2Proof.Machine.execIllegalEmit s
  | .illegalShrb => Sys2Proof.Machine.execIllegalShrb s
  | .illegalShrc => Sys2Proof.Machine.execIllegalShrc s

end Sys2Proof.Machine
end

