-- ==== Sys2Proof/Machine/Step.lean ====
section
/-! DEFINITION. One step of the machine (R66), and the placing of an instruction for the host's checks. -/

namespace Sys2Proof.Machine

/-- One step: what `turn` says, or the instruction it fetched (R66). -/
def step (s : State) : Host.Outcome State Fault Refusal :=
  match turn s with
  | .ends o => o
  | .executes i => exec i s

/-- The state whose next step fetches and runs the instruction of the table word `w`. -/
def State.withFetchWord (s : State) (_nbits w : Nat) : State := placeTableWord s w

end Sys2Proof.Machine
end

