-- ==== Sys2Proof/Machine/Assembler.lean ====
section
/-! DEFINITION. The assembler syntax of R61, by tokens: a mnemonic and its operand. -/

namespace Sys2Proof.Machine

open Sys2Proof

/-- A combo operand as written: a digit 0 to 3, or a register's letter (R61). -/
def asmCombo : ComboSrc → String
  | .lit 0 => "0"
  | .lit 1 => "1"
  | .lit 2 => "2"
  | .lit 3 => "3"
  | .lit _ => ""
  | .reg .A => "A"
  | .reg .B => "B"
  | .reg .C => "C"

/-- A literal or a target as written: a digit 0 to 7 (R61). -/
def asmLiteral : Nat → String
  | 0 => "0"
  | 1 => "1"
  | 2 => "2"
  | 3 => "3"
  | 4 => "4"
  | 5 => "5"
  | 6 => "6"
  | 7 => "7"
  | _ => ""

/-- The tokens of a line; the illegal words have no line (R61, R62). -/
def asmLine : Instr → Option (String × Option String)
  | .shra c => some ("SHRA", some (asmCombo c))
  | .xorl n => some ("XORL", some (asmLiteral n))
  | .mod8 c => some ("MOD8", some (asmCombo c))
  | .jnz t => some ("JNZ", some (asmLiteral t))
  | .xorc n => some ("XORC", some (asmLiteral n))
  | .emit c => some ("EMIT", some (asmCombo c))
  | .shrb c => some ("SHRB", some (asmCombo c))
  | .shrc c => some ("SHRC", some (asmCombo c))
  | .illegalShra => none
  | .illegalMod8 => none
  | .illegalEmit => none
  | .illegalShrb => none
  | .illegalShrc => none

/-- A combo operand as read: the digits 4 to 6 are not accepted (R61). -/
def readCombo (t : String) : Option ComboSrc :=
  if t = "0" then some (.lit 0)
  else if t = "1" then some (.lit 1)
  else if t = "2" then some (.lit 2)
  else if t = "3" then some (.lit 3)
  else if t = "A" then some (.reg .A)
  else if t = "B" then some (.reg .B)
  else if t = "C" then some (.reg .C)
  else none

/-- A literal or a target as read (R61). -/
def readLiteral (t : String) : Option Nat :=
  if t = "0" then some 0
  else if t = "1" then some 1
  else if t = "2" then some 2
  else if t = "3" then some 3
  else if t = "4" then some 4
  else if t = "5" then some 5
  else if t = "6" then some 6
  else if t = "7" then some 7
  else none

/-- The instruction of a line; `XORC` may stand without an operand and then encodes operand 0 (R61). -/
def assemble (mnemonic : String) (operand : Option String) : Option Instr :=
  if mnemonic = "SHRA" then (operand.bind readCombo).map .shra
  else if mnemonic = "XORL" then (operand.bind readLiteral).map .xorl
  else if mnemonic = "MOD8" then (operand.bind readCombo).map .mod8
  else if mnemonic = "JNZ" then (operand.bind readLiteral).map .jnz
  else if mnemonic = "XORC" then
    match operand with
    | none => some (.xorc 0)
    | some t => (readLiteral t).map .xorc
  else if mnemonic = "EMIT" then (operand.bind readCombo).map .emit
  else if mnemonic = "SHRB" then (operand.bind readCombo).map .shrb
  else if mnemonic = "SHRC" then (operand.bind readCombo).map .shrc
  else none

end Sys2Proof.Machine
end

