-- ==== Sys2Proof/Machine/StartCheck.lean ====
section
/-! DEFINITION. The check of the whole program at the start of a run, and what it reports (R49, R65, R93, R98). -/

namespace Sys2Proof.Machine

open Sys2Proof

/-- The first condition the pair at the even index `i` breaks: opcode range, then operand range, then
the combo value 7 (R65, R98). -/
def pairViolation (opcode operand i : Nat) : Option (Malformed × Nat) :=
  match decode opcode operand with
  | .error e => some (decodeViolation e i)
  | .ok instr => if instr.isIllegal then some (.comboReserved, i + 1) else none

/-- The first violation among the pairs from the even index `i` on. -/
def pairsViolation : Nat → List Elem → Option (Malformed × Nat)
  | i, opcode :: operand :: rest =>
    match pairViolation opcode.toNat operand.toNat i with
    | some v => some v
    | none => pairsViolation (i + 2) rest
  | _, _ => none

/-- `first_violation(P)` of R65: odd length before anything else, then the least pair that breaks a
condition; none when the program is well-formed. -/
def firstViolation (p : List Elem) : Option (Malformed × Nat) :=
  if p.length % 2 = 1 then some (.oddLength, p.length) else pairsViolation 0 p

/-- The status a start leaves: the check covers every pair, reachable or not (R65, R110). -/
def startStatus (p : List Elem) : Status :=
  match firstViolation p with
  | none => .running
  | some (sub, i) => .faulted (.malformedProgram sub i)

end Sys2Proof.Machine
end

