-- ==== Sys2Proof/Machine/HostOps.lean ====
section
/-! DEFINITION. What the host may do, and when: `Load`, `Start` and the reads of R113. -/

namespace Sys2Proof.Machine

open Sys2Proof

/-- The block's power-on reset input, from any state (R29, R109); the ceiling is the machine's and stays. -/
def powerOnReset (s : State) : State := State.resetWith s.ceiling

/-- The effect of `Load(P)`: program memory and `LEN`, and nothing else (R112). -/
def State.loadProgram (s : State) (p : List Elem) : State :=
  { s with pm := Memory.ofElems p, len := p.length, loaded := true }

/-- The effect of `Start(a, b, c)`, one action before any step (R64, R110). -/
def State.startRun (s : State) (a b c : Word) : State :=
  { s with a := a, b := b, c := c, pc := 0, out := [], steps := 0, status := startStatus s.program }

/-- `Load(P)`: never in `Running` (R112, R113). -/
def hostLoad (p : List Elem) (s : State) : Host.Outcome State Fault Refusal :=
  if s.status = .running then .refused .hostWhileRunning else .next (s.loadProgram p)

/-- `Start(a, b, c)`: never in `Running`, and on a program loaded since reset (R110, R113). -/
def hostStart (a b c : Word) (s : State) : Host.Outcome State Fault Refusal :=
  if s.status = .running then .refused .hostWhileRunning
  else if s.loaded then .next (s.startRun a b c)
  else .refused .noProgramLoaded

/-- Whether the run is over: `Halted` or `Faulted` (R115). -/
def Status.over : Status → Bool
  | .idle => false
  | .running => false
  | .halted => true
  | .faulted _ => true

/-- The cause and `info` of a fault (R92). -/
def Status.cause : Status → Option Cause
  | .idle => none
  | .running => none
  | .halted => none
  | .faulted cause => some cause

/-- The code of a status (R23). -/
def Status.code : Status → Nat
  | .idle => 0
  | .running => 1
  | .halted => 2
  | .faulted _ => 3

/-- The code of a cause (R92). -/
def Cause.code : Cause → Nat
  | .malformedProgram _ _ => 1
  | .misalignedJump _ _ => 2
  | .stepCeiling => 3

/-- The sub-code of a malformed program (R93). -/
def Malformed.code : Malformed → Nat
  | .oddLength => 1
  | .opcodeRange => 2
  | .operandRange => 3
  | .comboReserved => 4

/-- The host's read of the status, always allowed (R113). -/
def hostReadStatus (s : State) : Status := s.status

/-- A read the host may make only of a run that is over (R113). -/
def hostRead {α : Type} (view : State → α) (s : State) : Except Refusal α :=
  if s.status.over then .ok (view s) else .error .readNotAllowed

/-- The host's read of the output: the result of the run when it has halted (R115). -/
def hostReadOut (s : State) : Except Refusal (List OutVal) := hostRead State.out s

/-- The host's read of a register of a finished run (R113). -/
def hostReadReg (r : Reg) (s : State) : Except Refusal Word := hostRead (fun t => t.reg r) s

/-- The host's read of the final or frozen pc (R113). -/
def hostReadPc (s : State) : Except Refusal Nat := hostRead State.pc s

/-- The host's read of the number of executed instructions (R113). -/
def hostReadSteps (s : State) : Except Refusal Nat := hostRead State.steps s

/-- The host's read of a fault's cause and `info`; none of a halted run (R92, R113). -/
def hostReadInfo (s : State) : Except Refusal (Option Cause) := hostRead (fun t => t.status.cause) s

end Sys2Proof.Machine
end

