-- ==== Sys2Proof/Machine/Run.lean ====
section
/-! DEFINITION. The run of R63: a start and the steps that follow, up to the first state with no step. -/

namespace Sys2Proof.Machine

open Sys2Proof

/-- At most `k` steps, stopping where no step is defined. -/
def runSteps : Nat → State → State
  | 0, s => s
  | k + 1, s =>
    match step s with
    | .next t => runSteps k t
    | .fault _ => s
    | .refused _ => s

/-- The two ways a run ends, each with the state it ends in (R63, R90, R91). -/
inductive RunOutcome where
  | halted (s : State)
  | fault (cause : Cause) (s : State)
deriving DecidableEq, Repr

/-- The outcome a state stands for: none before a run is over (R78). -/
def State.outcome (s : State) : Option RunOutcome :=
  match s.status with
  | .idle => none
  | .running => none
  | .halted => some (.halted s)
  | .faulted cause => some (.fault cause s)

/-- `run(P, a, b, c)` of R63 under a ceiling, cut off after `fuel` steps; none when the run has no
outcome by then. -/
def run (fuel : Nat) (n : Option Nat) (p : List Elem) (a b c : Word) : Option RunOutcome :=
  (runSteps fuel (((State.resetWith n).loadProgram p).startRun a b c)).outcome

end Sys2Proof.Machine
end

