-- ==== Sys2Proof/Safety.lean ====
section
/-! DEFINITION. The terms claims use: the well-formed program of R49, the read and write table of R17, what a step
keeps of the program, and the invariant of the machine. -/

namespace Sys2Proof.Machine

open Sys2Proof

/-- The value of the element at an index of a program; beyond the end, where R49 asks nothing, 0. -/
def elemValue (p : List Elem) (i : Nat) : Nat := (p.getD i 0).toNat

/-- `WF(P)`, the four conditions of R49. -/
structure ProgramWF (p : List Elem) : Prop where
  /-- Condition 1. -/
  evenLength : p.length % 2 = 0
  /-- Condition 2. -/
  opcodes : ∀ i, i % 2 = 0 → i < p.length → elemValue p i ≤ 7
  /-- Condition 3. -/
  operands : ∀ i, i % 2 = 0 → i < p.length → elemValue p (i + 1) ≤ 7
  /-- Condition 4. -/
  combos : ∀ i, i % 2 = 0 → i < p.length → elemValue p i ∈ Config.comboOpcodes → elemValue p (i + 1) ≤ 6

/-- The registers a combo operand reads (R17). -/
def comboReads : ComboSrc → List Reg
  | .lit _ => []
  | .reg r => [r]

/-- The registers an instruction reads (R17). -/
def readsOf : Instr → List Reg
  | .shra c => .A :: comboReads c
  | .xorl _ => [.B]
  | .mod8 c => comboReads c
  | .jnz _ => [.A]
  | .xorc _ => [.B, .C]
  | .emit c => comboReads c
  | .shrb c => .A :: comboReads c
  | .shrc c => .A :: comboReads c
  | .illegalShra => []
  | .illegalMod8 => []
  | .illegalEmit => []
  | .illegalShrb => []
  | .illegalShrc => []

/-- The register an instruction writes (R17): at most one. -/
def writesOf : Instr → Option Reg
  | .shra _ => some .A
  | .xorl _ => some .B
  | .mod8 _ => some .B
  | .jnz _ => none
  | .xorc _ => some .B
  | .emit _ => none
  | .shrb _ => some .B
  | .shrc _ => some .C
  | .illegalShra => none
  | .illegalMod8 => none
  | .illegalEmit => none
  | .illegalShrb => none
  | .illegalShrc => none

/-- The next state of an outcome changed by `f`; a stop stays as it is. -/
def mapNext (f : State → State) : Host.Outcome State Fault Refusal → Host.Outcome State Fault Refusal
  | .next t => .next (f t)
  | .fault r => .fault r
  | .refused r => .refused r

/-- The same state of a machine with another ceiling: the parameter of R6 varied, everything else kept. -/
def State.withCeiling (s : State) (n : Option Nat) : State := { s with ceiling := n }

/-- The same state with another status. -/
def State.withStatus (s : State) (status : Status) : State := { s with status := status }

/-- The two states hold the same program, as the fetch reads it, and the same parameters (R20, R28). -/
structure SameProgram (s t : State) : Prop where
  elems : ∀ i, t.readElem i = s.readElem i
  len : t.len = s.len
  loaded : t.loaded = s.loaded
  ceiling : t.ceiling = s.ceiling

/-- What holds of the machine at reset, and after every step, load and start. -/
structure Invariant (s : State) : Prop where
  /-- Program memory is in canonical form. -/
  memory : s.pm.wf = true
  /-- Nothing is listed outside the program. -/
  inside : ∀ cell ∈ s.pm, cell.1 < s.len
  /-- The pc is even (R19). -/
  pcEven : s.pc % 2 = 0
  /-- At most one value is emitted per instruction (R22). -/
  outBound : s.out.length ≤ s.steps
  /-- The state before the first start (R109). -/
  idleFields : s.status = .idle → s.pc = 0 ∧ s.out = [] ∧ s.steps = 0
  /-- A run starts on a loaded program only (R113). -/
  startedLoaded : s.status ≠ .idle → s.loaded = true
  /-- A run in progress passed the start check (R65, R110). -/
  runningWF : s.status = .running → ProgramWF s.program
  /-- The bound of R19 on the pc of a run in progress. -/
  runningPc : s.status = .running → s.pc ≤ max s.len 6
  /-- A run in progress has not passed the ceiling (R68). -/
  runningCeiling : s.status = .running → ∀ n, s.ceiling = some n → s.steps ≤ n
  /-- A malformed program has executed nothing (R93). -/
  malformedFields : ∀ sub i, s.status = .faulted (.malformedProgram sub i) → s.pc = 0 ∧ s.out = [] ∧ s.steps = 0
  /-- What the state and the info of a misaligned jump are (R94). -/
  misalignedFields : ∀ p t, s.status = .faulted (.misalignedJump p t) → p = s.pc ∧ t % 2 = 1 ∧ t ≤ 7 ∧ s.a ≠ 0
  /-- Where the count stands when the ceiling was hit (R95). -/
  ceilingFields : s.status = .faulted .stepCeiling → s.ceiling = some s.steps

end Sys2Proof.Machine
end

