-- ==== Sys2Proof/Certificates/Slice0/Obligations.lean ====
section
/-! DEFINITION. The statements for the provers, each from a rule of the spec. -/

open Sys2Proof Sys2Proof.Machine

/- Encoding -/

/-- R53, R54: decoding the pair of any well-formed instruction gives it back.  For the five illegal words R53 lets
decode raise; that it answers an illegal constructor there is the model's choice, notes/assumptions/10.md. -/
def Obligations.DecodeEncodeRoundTrip : Prop :=
  ∀ i : Instr, i.WellFormed = true → decode (encode i).1 (encode i).2 = .ok i

/-- R53: what the decoder reads is well-formed and encodes to the very pair it was read from.  That it reads an
instruction from the five illegal pairs too is the model's choice, notes/assumptions/10.md. -/
def Obligations.EncodeOfDecoded : Prop :=
  ∀ (opcode operand : Nat) (i : Instr), decode opcode operand = .ok i →
    i.WellFormed = true ∧ encode i = (opcode, operand)

/-- R53, R55, R57: which pairs are rejected as out of range, which are illegal words, and that every other pair is
one of the eight instructions.  The rejection of an operand of 8 or more under opcodes 1, 3 and 4 is the spec's
decision D7, and that opcodeRange is the answer where both elements exceed 7 its decision D19.  That the operand 7
under a combo opcode is read as an illegal word, where R53 lets decode raise, is the model's choice,
notes/assumptions/10.md. -/
def Obligations.DecodeRejectsExactly : Prop :=
  ∀ opcode operand : Nat,
    (decode opcode operand = .error .opcodeRange ↔ 7 < opcode) ∧
    (decode opcode operand = .error .operandRange ↔ opcode ≤ 7 ∧ 7 < operand) ∧
    ((∃ i, decode opcode operand = .ok i ∧ i.isIllegal = true) ↔
      opcode ∈ Config.comboOpcodes ∧ operand = 7) ∧
    ((∃ i, decode opcode operand = .ok i ∧ i.isIllegal = false) ↔
      opcode ≤ 7 ∧ operand ≤ 7 ∧ ¬ (opcode ∈ Config.comboOpcodes ∧ operand = 7))

/-- R48, R54: a few instruction words of the spec's own listings, written out bit by bit, one or more of every
family.  That the illegal word decodes to a constructor of its own, where R53 and R57 raise, is the model's choice,
notes/assumptions/10.md; that a word of seven bits decodes to none is the model's reading of R47 and R48, through
tableElements, notes/assumptions/18.md. -/
def Obligations.SampleWordsDecode : Prop :=
  decodeTableWord 8 0b000011 = some (.shra (.lit 3)) ∧
  decodeTableWord 8 0b001011 = some (.xorl 3) ∧
  decodeTableWord 8 0b010100 = some (.mod8 (.reg .A)) ∧
  decodeTableWord 8 0b011000 = some (.jnz 0) ∧
  decodeTableWord 8 0b100111 = some (.xorc 7) ∧
  decodeTableWord 8 0b101101 = some (.emit (.reg .B)) ∧
  decodeTableWord 8 0b110001 = some (.shrb (.lit 1)) ∧
  decodeTableWord 8 0b111101 = some (.shrc (.reg .B)) ∧
  decodeTableWord 8 0b010111 = some .illegalMod8 ∧
  decodeTableWord 8 0b1000000 = none

/-- R48: the instruction word of a well-formed instruction has six bits, the opcode in bits 5 to 3 and the
operand in bits 2 to 0, and the decoder reads the instruction from it.  The word is the spec's decision D10; that the
five illegal words are read as instructions is the model's choice, notes/assumptions/10.md. -/
def Obligations.InstructionWordDecodes : Prop :=
  ∀ i : Instr, i.WellFormed = true →
    instrWord i < 64 ∧ instrWord i / 8 = (encode i).1 ∧ instrWord i % 8 = (encode i).2 ∧
      ∀ nbits, decodeTableWord nbits (instrWord i) = some i

/-- R61 (notation of the spec, its decision D17): the line of every legal instruction assembles to it, the
illegal words have no line, `XORC` alone encodes operand 0, and a combo operand is never written 4 to 7. -/
def Obligations.AssemblerRoundTrip : Prop :=
  (∀ i : Instr, i.WellFormed = true → i.isIllegal = false →
    ∃ m t, asmLine i = some (m, t) ∧ assemble m t = some i) ∧
  (∀ i : Instr, i.isIllegal = true → asmLine i = none) ∧
  assemble "XORC" none = some (.xorc 0) ∧
  (∀ m ∈ ["SHRA", "SHRB", "SHRC", "MOD8", "EMIT"], ∀ d ∈ ["4", "5", "6", "7"], assemble m (some d) = none)

/- Operands and the ALU -/

/-- R52: the word a combo operand denotes, from the register file of the state it executes in, and the two
faults of a value that denotes none. -/
def Obligations.ComboOperandValue : Prop :=
  ∀ (s : State) (k : Nat),
    (k ≤ 3 → ∃ src, comboSrc k = some src ∧ (combo src s).toNat = k) ∧
    (k = 4 → ∃ src, comboSrc k = some src ∧ combo src s = s.a) ∧
    (k = 5 → ∃ src, comboSrc k = some src ∧ combo src s = s.b) ∧
    (k = 6 → ∃ src, comboSrc k = some src ∧ combo src s = s.c) ∧
    (k = 7 → comboSrc k = none ∧
      ∀ opcode ∈ Config.comboOpcodes, ∀ i, pairViolation opcode k i = some (.comboReserved, i + 1)) ∧
    (8 ≤ k → comboSrc k = none ∧
      ∀ opcode ∈ Config.comboOpcodes, ∀ i, pairViolation opcode k i = some (.operandRange, i + 1))

/-- R75: the logical right shift, for every word and every amount, with the consequences the rule lists. -/
def Obligations.LogicalShiftLaw : Prop :=
  (∀ v n : Word,
    (n.toNat ≤ 63 → (shiftRight v n).toNat = v.toNat / 2 ^ n.toNat) ∧
    (64 ≤ n.toNat → shiftRight v n = 0) ∧
    (shiftRight v n).toNat ≤ v.toNat ∧
    (v ≠ 0 → n ≠ 0 → (shiftRight v n).toNat < v.toNat) ∧
    shiftRight v v = 0 ∧
    shiftRight v 0 = v ∧
    shiftRight v 63 = (if v.getLsbD 63 then 1 else 0)) ∧
  shiftRight 0x8000000000000000 1 = 0x4000000000000000

/-- R76: the exclusive OR and the AND with 7, bit by bit and as values. -/
def Obligations.BitwiseLaws : Prop :=
  ∀ v w : Word,
    (∀ i, i < 64 → ((xorWord v w).getLsbD i = true ↔ v.getLsbD i ≠ w.getLsbD i)) ∧
    xorWord v 0 = v ∧ xorWord v v = 0 ∧ xorWord (xorWord v w) w = v ∧
    (∀ n, n ≤ 7 → ∀ i, 3 ≤ i → (xorWord v (literal n)).getLsbD i = v.getLsbD i) ∧
    (and7 v).toNat = v.toNat % 8 ∧
    (∀ i, (and7 v).getLsbD i = (decide (i < 3) && v.getLsbD i)) ∧
    (trunc3 (and7 v)).toNat = v.toNat % 8

/- What each instruction does -/

/-- R79, `SHRA`: from every state it completes with A the old A divided by two to the amount, rounded down;
its encoding, its corner cases, and the pair with operand 7. -/
def Obligations.ShraResult : Prop :=
  (∀ (src : ComboSrc) (s : State), ∃ t, exec (.shra src) s = .next t ∧
    t.a.toNat = s.a.toNat / 2 ^ (combo src s).toNat ∧
    t.pc = s.pc + 2 ∧ t.b = s.b ∧ t.c = s.c ∧ t.out = s.out ∧
    (src = .lit 0 → t.a = s.a ∧ t.steps = s.steps + 1) ∧
    (src = .reg .A → t.a = 0) ∧
    (64 ≤ (combo src s).toNat → t.a = 0 ∧ (src.WellFormed = true → ∃ r, src = .reg r)) ∧
    (s.a = 0 → t.a = 0) ∧
    (combo src s ≠ 0 → t.a.getLsbD 63 = false)) ∧
  (∀ k, k ≤ 6 → ∃ src, comboSrc k = some src ∧ decode 0 k = .ok (.shra src)) ∧
  (∀ i, pairViolation 0 7 i = some (.comboReserved, i + 1))

/-- R80, `SHRB`: the value shifted is A, the result goes to B, and the old B matters as an amount only. -/
def Obligations.ShrbResult : Prop :=
  (∀ (src : ComboSrc) (s : State), ∃ t, exec (.shrb src) s = .next t ∧
    t.b.toNat = s.a.toNat / 2 ^ (combo src s).toNat ∧
    t.pc = s.pc + 2 ∧ t.a = s.a ∧ t.c = s.c ∧ t.out = s.out ∧
    (src = .lit 0 → t.b = s.a) ∧
    (src = .reg .A → t.b = 0) ∧
    (64 ≤ (combo src s).toNat → t.b = 0) ∧
    (src ≠ .reg .B → ∀ v, exec (.shrb src) (s.setReg .B v) = .next t)) ∧
  (∀ k, k ≤ 6 → ∃ src, comboSrc k = some src ∧ decode 6 k = .ok (.shrb src)) ∧
  (∀ i, pairViolation 6 7 i = some (.comboReserved, i + 1))

/-- R81, `SHRC`: the value shifted is A, the result goes to C, and no other instruction writes C. -/
def Obligations.ShrcResult : Prop :=
  (∀ (src : ComboSrc) (s : State), ∃ t, exec (.shrc src) s = .next t ∧
    t.c.toNat = s.a.toNat / 2 ^ (combo src s).toNat ∧
    t.pc = s.pc + 2 ∧ t.a = s.a ∧ t.b = s.b ∧ t.out = s.out ∧
    (src = .lit 0 → t.c = s.a) ∧
    (64 ≤ (combo src s).toNat → t.c = 0)) ∧
  (∀ (i : Instr) (s t : State), exec i s = .next t → t.c ≠ s.c → ∃ src, i = .shrc src) ∧
  (∀ k, k ≤ 6 → ∃ src, comboSrc k = some src ∧ decode 7 k = .ok (.shrc src)) ∧
  (∀ i, pairViolation 7 7 i = some (.comboReserved, i + 1))

/-- R82, `XORL`: B differs exactly in the bits of the literal, and the same literal twice restores it. -/
def Obligations.XorlResult : Prop :=
  (∀ (n : Nat) (s : State), ∃ t, exec (.xorl n) s = .next t ∧
    (∀ i, i < 64 → t.b.getLsbD i = (s.b.getLsbD i ^^ n.testBit i)) ∧
    t.pc = s.pc + 2 ∧ t.a = s.a ∧ t.c = s.c ∧ t.out = s.out ∧
    (n ≤ 7 → t.b.toNat / 8 = s.b.toNat / 8) ∧
    (n = 0 → t.b = s.b) ∧
    (∃ u, exec (.xorl n) t = .next u ∧ u.b = s.b)) ∧
  (∀ n, n ≤ 7 → decode 1 n = .ok (.xorl n)) ∧
  (∀ n i, 8 ≤ n → pairViolation 1 n i = some (.operandRange, i + 1))

/-- R83, `MOD8`: B becomes the remainder by 8 of the combo value, and a literal is loaded as it is. -/
def Obligations.Mod8Result : Prop :=
  (∀ (src : ComboSrc) (s : State), ∃ t, exec (.mod8 src) s = .next t ∧
    t.b.toNat = (combo src s).toNat % 8 ∧
    t.pc = s.pc + 2 ∧ t.a = s.a ∧ t.c = s.c ∧ t.out = s.out ∧
    (∀ n, n ≤ 3 → src = .lit n → t.b.toNat = n) ∧
    (src ≠ .reg .B → ∀ v, exec (.mod8 src) (s.setReg .B v) = .next t)) ∧
  (∀ k, k ≤ 6 → ∃ src, comboSrc k = some src ∧ decode 2 k = .ok (.mod8 src)) ∧
  (∀ i, pairViolation 2 7 i = some (.comboReserved, i + 1))

/-- R84, `XORC`: B becomes the exclusive OR of B and C over all 64 bits, the same for every operand. -/
def Obligations.XorcResult : Prop :=
  (∀ (n : Nat) (s : State), ∃ t, exec (.xorc n) s = .next t ∧
    (∀ i, i < 64 → t.b.getLsbD i = (s.b.getLsbD i ^^ s.c.getLsbD i)) ∧
    t.pc = s.pc + 2 ∧ t.a = s.a ∧ t.c = s.c ∧ t.out = s.out ∧
    (s.c = 0 → t.b = s.b) ∧ (s.b = s.c → t.b = 0) ∧
    (∀ m, exec (.xorc m) s = .next t)) ∧
  (∀ n, n ≤ 7 → decode 4 n = .ok (.xorc n)) ∧
  (∀ n i, 8 ≤ n → pairViolation 4 n i = some (.operandRange, i + 1))

/-- R85, `JNZ`: not taken when A is 0; taken when any bit of A is set, to the literal target; and a taken
jump to an odd target takes the fault `MisalignedJump` with nothing else changed.  The last clause is the
spec's decision D6. -/
def Obligations.JnzResult : Prop :=
  (∀ (x : Nat) (s : State), ∃ t, exec (.jnz x) s = .next t ∧
    t.a = s.a ∧ t.b = s.b ∧ t.c = s.c ∧ t.out = s.out ∧
    (s.a = 0 → t.pc = s.pc + 2 ∧ t.status = s.status) ∧
    ((∃ i, s.a.getLsbD i = true) → x % 2 = 0 → t.pc = x ∧ t.status = s.status) ∧
    ((∃ i, s.a.getLsbD i = true) → x % 2 = 1 →
      t = { s with status := .faulted (.misalignedJump s.pc x) })) ∧
  (∀ x, x ≤ 7 → decode 3 x = .ok (.jnz x)) ∧
  (∀ x i, 8 ≤ x → pairViolation 3 x i = some (.operandRange, i + 1))

/-- R88, `EMIT`: one value is appended at the end, the remainder by 8 of the combo value, and nothing the
rule does not name changes. -/
def Obligations.EmitResult : Prop :=
  (∀ (src : ComboSrc) (s : State), ∃ t, exec (.emit src) s = .next t ∧
    (∃ v : OutVal, v.toNat = (combo src s).toNat % 8 ∧ t.out = s.out ++ [v] ∧
      (∀ n, n ≤ 3 → src = .lit n → v.toNat = n)) ∧
    t.out.length = s.out.length + 1 ∧
    (∀ i, i < s.out.length → t.out[i]? = s.out[i]?) ∧
    t.pc = s.pc + 2 ∧ t.a = s.a ∧ t.b = s.b ∧ t.c = s.c ∧
    (∃ u, exec (.emit src) t = .next u ∧ ∀ v, t.out = s.out ++ [v] → u.out = s.out ++ [v, v])) ∧
  (∀ k, k ≤ 6 → ∃ src, comboSrc k = some src ∧ decode 5 k = .ok (.emit src)) ∧
  (∀ i, pairViolation 5 7 i = some (.comboReserved, i + 1))

/-- R57 with R100, the five illegal words: each takes `MalformedProgram(ComboReserved)` at the index of its
operand, and only the status changes.  That a fault leaves the rest of the state is the spec's decision D16;
that decoding gives the word as an instruction which raises, the model's choice of notes/assumptions/10.md. -/
def Obligations.IllegalWordsRaise : Prop :=
  ∀ i ∈ [Instr.illegalShra, .illegalMod8, .illegalEmit, .illegalShrb, .illegalShrc], ∀ s : State,
    (∃ opcode ∈ Config.comboOpcodes, decode opcode 7 = .ok i) ∧
    exec i s = .next { s with status := .faulted (.malformedProgram .comboReserved (s.pc + 1)) }

/- Frames -/

/-- R17, R72, R34, the frame of all thirteen instructions: a register other than the destination, the output
of any but `EMIT`, the pc's advance of any that executes and does not jump, the status of any that takes no
fault, every element of program memory, and the parameters.  That a taken jump to an odd target takes a fault is the
spec's decision D6; that an illegal word is executed and takes its fault there, the model's choice of
notes/assumptions/10.md. -/
def Obligations.InstructionFrame : Prop :=
  ∀ (i : Instr) (s t : State), exec i s = .next t →
    (∀ r, writesOf i ≠ some r → t.reg r = s.reg r) ∧
    ((∀ src, i ≠ .emit src) → t.out = s.out) ∧
    ((∀ x, i ≠ .jnz x) → i.isIllegal = false → t.pc = s.pc + 2) ∧
    ((∀ x, i = .jnz x → s.a = 0 ∨ x % 2 = 0) → i.isIllegal = false → t.status = s.status) ∧
    (∀ addr, t.readElem addr = s.readElem addr) ∧
    t.pm = s.pm ∧ t.len = s.len ∧ t.loaded = s.loaded ∧ t.ceiling = s.ceiling

/-- R73, R100, for all thirteen instructions: an execution either counts one step and keeps the status, or
takes a fault and changes nothing but the status.  The step count is the spec's decision D4, the fault of a taken jump
to an odd target its decision D6, and the frozen state its decision D16.  That an illegal word is executed and takes
its fault there, where the spec's decode raises, is the model's choice, notes/assumptions/10.md. -/
def Obligations.ExecutionCountsOrFaults : Prop :=
  ∀ (i : Instr) (s : State), ∃ t, exec i s = .next t ∧
    ((t.steps = s.steps + 1 ∧ t.status = s.status) ∨
      ((i.isIllegal = true ∨ ∃ x, i = .jnz x ∧ x % 2 = 1 ∧ s.a ≠ 0) ∧
        ∃ cause, t = { s with status := .faulted cause }))

/-- R17, the table the spec derives from its instruction rules: a register an instruction does not read has no
influence on what it does, beyond keeping its own value where it is not written.  The table has no row for the illegal
words; that they read and write no register goes with notes/assumptions/10.md, the model's choice. -/
def Obligations.UnreadRegisterHasNoInfluence : Prop :=
  ∀ (i : Instr) (s : State) (r : Reg) (v : Word), r ∉ readsOf i →
    (writesOf i = some r → exec i (s.setReg r v) = exec i s) ∧
    (writesOf i ≠ some r → exec i (s.setReg r v) = mapNext (fun t => t.setReg r v) (exec i s))

/- The step -/

/-- R66: a step in `Running`, before the end and below the ceiling, is the execution of the instruction the
two elements at the pc decode to, with nothing added around it. -/
def Obligations.StepRunsDecodedInstruction : Prop :=
  ∀ (s : State) (opcode operand : Elem) (i : Instr),
    s.status = .running → s.ceiling ≠ some s.steps → s.pc % 2 = 0 →
    s.readElem s.pc = some opcode → s.readElem (s.pc + 1) = some operand →
    decode opcode.toNat operand.toNat = .ok i → step s = exec i s

/-- R67: the halt test, before the fetch and before the ceiling test, and the only normal end of a run. -/
def Obligations.HaltTest : Prop :=
  (∀ s : State, s.status = .running → s.len ≤ s.pc → ∃ t, step s = .next t ∧ t.status = .halted ∧
    t.a = s.a ∧ t.b = s.b ∧ t.c = s.c ∧ t.pc = s.pc ∧ t.out = s.out ∧ t.steps = s.steps ∧
    hostReadOut t = .ok s.out ∧ hostReadPc t = .ok s.pc ∧ hostReadSteps t = .ok s.steps ∧
    (∀ r, hostReadReg r t = .ok (s.reg r))) ∧
  (∀ s t : State, step s = .next t → t.status = .halted → s.status = .running ∧ s.len ≤ s.pc) ∧
  (∀ (n : Option Nat) (a b c : Word), ∃ t,
    step (((State.resetWith n).loadProgram []).startRun a b c) = .next t ∧
      t.status = .halted ∧ t.out = [] ∧ t.steps = 0)

/-- R68, R95: the ceiling test, when it raises and that nothing else raises its fault.  The unit, the
comparison and its place in the step are the spec's decision D4. -/
def Obligations.CeilingTest : Prop :=
  (∀ s : State, s.status = .running → s.pc < s.len → s.ceiling = some s.steps →
    step s = .next { s with status := .faulted .stepCeiling }) ∧
  (∀ s t : State, step s = .next t → t.status = .faulted .stepCeiling →
    s.pc < s.len ∧ s.ceiling = some s.steps ∧ t = { s with status := .faulted .stepCeiling })

/-- R70: a bad pair met by a step raises the sub-cause of its first violation, with the element's index.
That the faulting step leaves the rest of the state is the spec's decision D16, and the order of the checks
its decision D19. -/
def Obligations.BadPairRaises : Prop :=
  ∀ (s : State) (opcode operand : Elem),
    s.status = .running → s.ceiling ≠ some s.steps → s.pc % 2 = 0 →
    s.readElem s.pc = some opcode → s.readElem (s.pc + 1) = some operand →
    (7 < opcode.toNat →
      step s = .next { s with status := .faulted (.malformedProgram .opcodeRange s.pc) }) ∧
    (opcode.toNat ≤ 7 → 7 < operand.toNat →
      step s = .next { s with status := .faulted (.malformedProgram .operandRange (s.pc + 1)) }) ∧
    (opcode.toNat ∈ Config.comboOpcodes → operand.toNat = 7 →
      step s = .next { s with status := .faulted (.malformedProgram .comboReserved (s.pc + 1)) })

/-- R94: a step ends in `MisalignedJump` only by a `JNZ` to an odd target with A nonzero, and then nothing but
the status has changed.  The fault is the spec's decision D6. -/
def Obligations.MisalignedJumpOnlyByTakenOddJump : Prop :=
  ∀ (s t : State) (p x : Nat), step s = .next t → t.status = .faulted (.misalignedJump p x) →
    p = s.pc ∧ x % 2 = 1 ∧ s.a ≠ 0 ∧ s.readElem s.pc = some 3 ∧
      (∃ operand : Elem, s.readElem (s.pc + 1) = some operand ∧ operand.toNat = x) ∧
      t = { s with status := .faulted (.misalignedJump p x) }

/-- R23, R96, R102, R109: outside `Running` no step is defined, and each stop has its own name.  The status
register is the spec's decision D8; that the model answers a named fault there is notes/assumptions/7.md. -/
def Obligations.NoStepOutsideRunning : Prop :=
  ∀ s : State,
    (s.status = .idle → step s = .fault .noStepIdle) ∧
    (s.status = .halted → step s = .fault .noStepHalted) ∧
    (∀ cause, s.status = .faulted cause → step s = .fault (.noStepFaulted cause)) ∧
    (∀ t, step s = .next t → s.status = .running)

/-- R123, an inference the spec marks as its own: while a run is in progress there is always a next state; the model's own stops at an odd pc and at
the edge of the program (notes/assumptions/5.md) are not reached under the invariant. -/
def Obligations.RunningAlwaysSteps : Prop :=
  ∀ s : State, Invariant s → s.status = .running → ∃ t, step s = .next t

/- Invariants -/

/-- Every step keeps the invariant: the canonical program memory (the model's choice, notes/assumptions/4.md), the even
and bounded pc (R19), the bound on the output (R22), the flag of a loaded program (the model's
reading of R113, notes/assumptions/13.md), the well-formed program of a run in progress (R65), the ceiling's bound (R68), and what the
fields are in each kind of fault (R93, R94, R95). -/
def Obligations.StepKeepsInv : Prop :=
  ∀ s t : State, Invariant s → step s = .next t → Invariant t

/-- The invariant holds after power-on reset, whatever the ceiling.  Power-on reset is the spec's decision D12; that
nothing is listed in program memory there and LEN is 0, on which the memory fields of the invariant rest, is the
model's choice, notes/assumptions/4.md, since R29 leaves both unspecified. -/
def Obligations.ResetMeetsInv : Prop :=
  Invariant State.reset ∧ ∀ n : Option Nat, Invariant (State.resetWith n)

/-- R29, R109: what power-on reset leaves, for every ceiling.  The rule gives A, B, C and the program no value
(the model's are notes/assumptions/1.md and 4.md), and the statement says nothing of them.  The reset is the
spec's decisions D11 and D12; the names of the stops are the model's, notes/assumptions/7.md and 8.md. -/
def Obligations.ResetValues : Prop :=
  ∀ n : Option Nat,
    (State.resetWith n).status = .idle ∧ (State.resetWith n).steps = 0 ∧
    (State.resetWith n).out = [] ∧ (State.resetWith n).pc = 0 ∧
    (∀ a b c, hostStart a b c (State.resetWith n) = .refused .noProgramLoaded) ∧
    step (State.resetWith n) = .fault .noStepIdle

/-- `Load` and `Start` keep the invariant (R110, R112); the two operations are the spec's decision D11.  The
canonical form of the loaded memory, with nothing listed at or above LEN, is the model's choice,
notes/assumptions/4.md; the flag of a loaded program is its reading of R113, notes/assumptions/13.md. -/
def Obligations.HostKeepsInv : Prop :=
  ∀ s t : State, Invariant s →
    ((∃ p, hostLoad p s = .next t) ∨ (∃ a b c, hostStart a b c s = .next t)) → Invariant t

/-- R70, an inference the spec marks as its own: in a run that passed the start check (D5) no step raises `MalformedProgram`. -/
def Obligations.CheckedRunNeverMalformed : Prop :=
  ∀ s t : State, Invariant s → step s = .next t →
    ∀ sub i, t.status ≠ .faulted (.malformedProgram sub i)

/-- R19, R115, inferences the spec marks as its own: the pc of a run in progress stays even and at most `max(LEN, 6)`, for any number of steps, and
where the run halts it is at or past `LEN`. -/
def Obligations.PcStaysEvenAndBounded : Prop :=
  ∀ (s : State) (k : Nat), Invariant s → s.status = .running →
    (runSteps k s).pc % 2 = 0 ∧ (runSteps k s).pc ≤ max s.len 6 ∧
      ((runSteps k s).status = .halted → s.len ≤ (runSteps k s).pc)

/- Runs -/

/-- R78, with the count and the ceiling of the spec's decision D4: with a finite ceiling every run has an outcome within `STEP_CEILING + 1` steps of its start, and it
has executed at most `STEP_CEILING` instructions. -/
def Obligations.FiniteCeilingRunEnds : Prop :=
  ∀ (s : State) (n : Nat), Invariant s → s.status = .running → s.ceiling = some n →
    (runSteps (n - s.steps + 1) s).outcome ≠ none ∧ (runSteps (n - s.steps + 1) s).steps ≤ n

/-- R95 and D4: a ceiling only cuts a run short.  A run it does not stop is the run without a ceiling, and one
it stops stands where the run without a ceiling comes through, its output the beginning of what that emits. -/
def Obligations.CeilingOnlyCutsRunShort : Prop :=
  ∀ (s : State) (k : Nat), s.status = .running →
    ((runSteps k s).status ≠ .faulted .stepCeiling →
      runSteps k (s.withCeiling none) = (runSteps k s).withCeiling none) ∧
    ((runSteps k s).status = .faulted .stepCeiling →
      ∃ j, runSteps j (s.withCeiling none) = ((runSteps k s).withStatus .running).withCeiling none ∧
        ∀ m, (runSteps k s).out <+: (runSteps (j + m) (s.withCeiling none)).out)

/-- R21: the output of a run only grows at its end, by at most one value a step. -/
def Obligations.OutputOnlyGrows : Prop :=
  ∀ (s : State) (k : Nat),
    s.out <+: (runSteps k s).out ∧ (runSteps k s).out.length ≤ s.out.length + k

/-- R44: from a load on, every fetch of the run that follows reads the element the host loaded.  That a load is
refused while the run is in progress is the spec's decision D11, and the refusal's name the model's,
notes/assumptions/8.md. -/
def Obligations.FetchReadsLoadedProgram : Prop :=
  ∀ (p : List Elem) (a b c : Word) (s t u : State),
    hostLoad p s = .next t → hostStart a b c t = .next u → ∀ k,
      (∀ i, (runSteps k u).readElem i = p[i]?) ∧ (runSteps k u).program = p ∧
      ((runSteps k u).status = .running → ∀ q, hostLoad q (runSteps k u) = .refused .hostWhileRunning)

/-- R27, R111: nothing of an earlier run survives: from any two states with the same ceiling, loading the same
program and starting with the same registers gives the same state, so the same run and outcome. -/
def Obligations.StartForgetsEarlierRuns : Prop :=
  ∀ (p : List Elem) (a b c : Word) (s s' t t' u u' : State), s.ceiling = s'.ceiling →
    hostLoad p s = .next t → hostLoad p s' = .next t' →
    hostStart a b c t = .next u → hostStart a b c t' = .next u' →
    u = u' ∧ ∀ n k, s.ceiling = n → (runSteps k u).outcome = run k n p a b c

/- The start check and the host -/

/-- R49, R65: the start check finds nothing exactly in the well-formed programs.  The check of the whole
program is the spec's decision D5. -/
def Obligations.StartCheckIsWellFormedness : Prop :=
  ∀ p : List Elem, firstViolation p = none ↔ ProgramWF p

/-- R65, R98: which violation is reported: odd length first, else that of the least pair that breaks a
condition, opcode before operand before the combo value 7.  The order is the spec's decision D19. -/
def Obligations.FirstViolationReported : Prop :=
  ∀ p : List Elem,
    (p.length % 2 = 1 → firstViolation p = some (.oddLength, p.length)) ∧
    (p.length % 2 = 0 → ∀ i, i % 2 = 0 → i < p.length →
      (∀ j, j % 2 = 0 → j < i → elemValue p j ≤ 7 ∧ elemValue p (j + 1) ≤ 7 ∧
        (elemValue p j ∈ Config.comboOpcodes → elemValue p (j + 1) ≤ 6)) →
      (7 < elemValue p i → firstViolation p = some (.opcodeRange, i)) ∧
      (elemValue p i ≤ 7 → 7 < elemValue p (i + 1) → firstViolation p = some (.operandRange, i + 1)) ∧
      (elemValue p i ∈ Config.comboOpcodes → elemValue p (i + 1) = 7 →
        firstViolation p = some (.comboReserved, i + 1)))

/-- R64, R110: what a start leaves, on any loaded program, from `Idle`, `Halted` or `Faulted`: the start state
of a run, in progress exactly when the program is well-formed.  The operation is the spec's decision D11. -/
def Obligations.StartState : Prop :=
  ∀ (s : State) (a b c : Word), s.status ≠ .running → s.loaded = true →
    ∃ t, hostStart a b c s = .next t ∧
      t.a = a ∧ t.b = b ∧ t.c = c ∧ t.pc = 0 ∧ t.out = [] ∧ t.steps = 0 ∧ SameProgram s t ∧
      (ProgramWF s.program → t.status = .running) ∧
      (¬ ProgramWF s.program → ∃ sub i, firstViolation s.program = some (sub, i) ∧
        t.status = .faulted (.malformedProgram sub i))

/-- R112: what a load leaves: the program, its length, and every register, the pc, the output, the status, the
count and the ceiling as before.  The operation is the spec's decision D11.  The canonical form of the memory is the
model's choice, notes/assumptions/4.md; the flag that a program is loaded is its reading of R113,
notes/assumptions/13.md. -/
def Obligations.LoadReplacesProgram : Prop :=
  ∀ (p : List Elem) (s : State), s.status ≠ .running →
    ∃ t, hostLoad p s = .next t ∧
      t.program = p ∧ t.len = p.length ∧ t.loaded = true ∧ t.pm.wf = true ∧
      t.a = s.a ∧ t.b = s.b ∧ t.c = s.c ∧ t.pc = s.pc ∧ t.out = s.out ∧ t.status = s.status ∧
      t.steps = s.steps ∧ t.ceiling = s.ceiling

/-- R113: what the host may not do: load or start during a run, or start with no program loaded since reset.
The table is the spec's decision D11; the names of the refusals are the model's, notes/assumptions/8.md. -/
def Obligations.HostRefusals : Prop :=
  ∀ (s : State) (p : List Elem) (a b c : Word),
    (s.status = .running →
      hostLoad p s = .refused .hostWhileRunning ∧ hostStart a b c s = .refused .hostWhileRunning) ∧
    (s.status ≠ .running → s.loaded = false → hostStart a b c s = .refused .noProgramLoaded)

/-- R113, R115: the host reads the status always, and the registers, the pc, the output, the count and the
fault only when the run is over.  The table is the spec's decision D11; that a read out of turn is refused by
name is notes/assumptions/8.md. -/
def Obligations.HostReadsFinishedRunsOnly : Prop :=
  ∀ s : State,
    hostReadStatus s = s.status ∧
    ((s.status = .halted ∨ ∃ cause, s.status = .faulted cause) →
      hostReadOut s = .ok s.out ∧ (∀ r, hostReadReg r s = .ok (s.reg r)) ∧ hostReadPc s = .ok s.pc ∧
      hostReadSteps s = .ok s.steps ∧
      ∃ info, hostReadInfo s = .ok info ∧ ∀ cause, s.status = .faulted cause ↔ info = some cause) ∧
    ((s.status = .idle ∨ s.status = .running) →
      hostReadOut s = .error .readNotAllowed ∧ (∀ r, hostReadReg r s = .error .readNotAllowed) ∧
      hostReadPc s = .error .readNotAllowed ∧ hostReadSteps s = .error .readNotAllowed ∧
      hostReadInfo s = .error .readNotAllowed)

/- The forms of memory and output -/

/-- R20, R32: a program memory is fixed by what its indices hold: two memories in the model's canonical form
(notes/assumptions/4.md) that read alike are equal data. -/
def Obligations.CanonicalMemoryIsUnique : Prop :=
  ∀ m m' : Memory, m.wf = true → m'.wf = true → (∀ i, m.read i = m'.read i) → m = m'

/-- R89: the packed view holds `out[i]` at bits `3i + 2` to `3i`, an append moves nothing already stored, and
the view with the count determines the output.  The view is the spec's decision D10. -/
def Obligations.PackedOutputView : Prop :=
  (∀ (out : List OutVal) (i : Nat), outBits out / 8 ^ i % 8 = (out.getD i 0).toNat) ∧
  (∀ (out : List OutVal) (v : OutVal),
    outBits (out ++ [v]) = outBits out + v.toNat * 8 ^ out.length) ∧
  (∀ out out' : List OutVal, out.length = out'.length → outBits out = outBits out' → out = out')
end

