-- ==== Sys2Proof/Laws/Alu.lean ====
section
/-! SUPPORT. What the ALU computes, as arithmetic on the values of words. -/

namespace Sys2Proof.Machine

open Sys2Proof

/-- The shift is the floor of `v / 2^n` for every amount: from 64 on the quotient is 0. -/
theorem shiftRight_toNat (v n : Word) : (shiftRight v n).toNat = v.toNat / 2 ^ n.toNat := by
  by_cases h : n.toNat ≤ 63
  · have hv : v.toNat / 2 ^ n.toNat < 2 ^ 64 := Nat.lt_of_le_of_lt (Nat.div_le_self _ _) v.isLt
    simp only [shiftRight, if_pos h, BitVec.toNat_ofNat, Nat.mod_eq_of_lt hv]
  · have hv : v.toNat < 2 ^ n.toNat :=
      Nat.lt_of_lt_of_le v.isLt (Nat.pow_le_pow_right (by omega) (by omega))
    simp only [shiftRight, if_neg h, Nat.div_eq_of_lt hv]
    rfl

/-- The AND with 7 is the remainder by 8. -/
theorem and7_toNat (v : Word) : (and7 v).toNat = v.toNat % 8 := by
  rw [and7, BitVec.toNat_and]
  exact Nat.and_two_pow_sub_one_eq_mod v.toNat 3

/-- The truncation keeps the remainder by 8. -/
theorem trunc3_toNat (v : Word) : (trunc3 v).toNat = v.toNat % 8 := by
  simp [trunc3]

/-- A value below the word's range is kept by the zero extension. -/
theorem zext64_toNat {n : Nat} (h : n < 2 ^ 64) : (zext64 n).toNat = n := by
  rw [zext64, BitVec.toNat_ofNat, Nat.mod_eq_of_lt h]

end Sys2Proof.Machine
end

