-- ==== Sys2Proof/Laws/Decode.lean ====
section
/-! SUPPORT. The combo operand's field, both ways, and what the decoder answers for a range of operands. -/

namespace Sys2Proof

/-- A combo literal in range is 0 to 3. -/
theorem combo_lit_le {n : Nat} (h : (ComboSrc.lit n).WellFormed = true) : n ≤ 3 := of_decide_eq_true h

/-- The field of a well-formed combo operand denotes it. -/
theorem comboSrc_encodeCombo {c : ComboSrc} (h : c.WellFormed = true) : comboSrc (encodeCombo c) = some c := by
  cases c with
  | lit n =>
    have := combo_lit_le h
    interval_cases n <;> rfl
  | reg r => cases r <;> rfl

/-- A field denotes a well-formed combo operand that encodes to it, up to 6, and none from 7 on. -/
theorem comboSrc_cases (k : Nat) :
    (∃ c, comboSrc k = some c ∧ c.WellFormed = true ∧ encodeCombo c = k ∧ k ≤ 6) ∨
      (comboSrc k = none ∧ 7 ≤ k) := by
  by_cases h : k ≤ 6
  · left
    interval_cases k <;> exact ⟨_, rfl, rfl, rfl, by omega⟩
  · right
    obtain ⟨j, rfl⟩ : ∃ j, k = j + 7 := ⟨k - 7, by omega⟩
    exact ⟨rfl, by omega⟩

/-- What the range check of an operand answers. -/
theorem withOperand_ok {operand : Nat} {i j : Instr} :
    withOperand operand i = .ok j ↔ operand ≤ 7 ∧ i = j := by
  by_cases h : operand ≤ 7 <;> simp [withOperand, Config.fieldMax, h]

end Sys2Proof
end

