-- ==== Sys2Proof/Laws/State.lean ====
section
/-! SUPPORT. One lemma per field per update of the state, and the laws of a register write. -/

namespace Sys2Proof.Machine

open Sys2Proof

@[simp] theorem State.retireAt_a (s : State) (t : Nat) : (s.retireAt t).a = s.a := rfl
@[simp] theorem State.retireAt_b (s : State) (t : Nat) : (s.retireAt t).b = s.b := rfl
@[simp] theorem State.retireAt_c (s : State) (t : Nat) : (s.retireAt t).c = s.c := rfl
@[simp] theorem State.retireAt_pc (s : State) (t : Nat) : (s.retireAt t).pc = t := rfl
@[simp] theorem State.retireAt_out (s : State) (t : Nat) : (s.retireAt t).out = s.out := rfl
@[simp] theorem State.retireAt_status (s : State) (t : Nat) : (s.retireAt t).status = s.status := rfl
@[simp] theorem State.retireAt_steps (s : State) (t : Nat) : (s.retireAt t).steps = s.steps + 1 := rfl
@[simp] theorem State.retireAt_pm (s : State) (t : Nat) : (s.retireAt t).pm = s.pm := rfl
@[simp] theorem State.retireAt_len (s : State) (t : Nat) : (s.retireAt t).len = s.len := rfl
@[simp] theorem State.retireAt_loaded (s : State) (t : Nat) : (s.retireAt t).loaded = s.loaded := rfl
@[simp] theorem State.retireAt_ceiling (s : State) (t : Nat) : (s.retireAt t).ceiling = s.ceiling := rfl

@[simp] theorem State.advance_a (s : State) : (s.advance).a = s.a := rfl
@[simp] theorem State.advance_b (s : State) : (s.advance).b = s.b := rfl
@[simp] theorem State.advance_c (s : State) : (s.advance).c = s.c := rfl
@[simp] theorem State.advance_pc (s : State) : (s.advance).pc = s.pc + 2 := rfl
@[simp] theorem State.advance_out (s : State) : (s.advance).out = s.out := rfl
@[simp] theorem State.advance_status (s : State) : (s.advance).status = s.status := rfl
@[simp] theorem State.advance_steps (s : State) : (s.advance).steps = s.steps + 1 := rfl
@[simp] theorem State.advance_pm (s : State) : (s.advance).pm = s.pm := rfl
@[simp] theorem State.advance_len (s : State) : (s.advance).len = s.len := rfl
@[simp] theorem State.advance_loaded (s : State) : (s.advance).loaded = s.loaded := rfl
@[simp] theorem State.advance_ceiling (s : State) : (s.advance).ceiling = s.ceiling := rfl

@[simp] theorem State.raise_a (s : State) (cause : Cause) : (s.raise cause).a = s.a := rfl
@[simp] theorem State.raise_b (s : State) (cause : Cause) : (s.raise cause).b = s.b := rfl
@[simp] theorem State.raise_c (s : State) (cause : Cause) : (s.raise cause).c = s.c := rfl
@[simp] theorem State.raise_pc (s : State) (cause : Cause) : (s.raise cause).pc = s.pc := rfl
@[simp] theorem State.raise_out (s : State) (cause : Cause) : (s.raise cause).out = s.out := rfl
@[simp] theorem State.raise_status (s : State) (cause : Cause) : (s.raise cause).status = .faulted cause := rfl
@[simp] theorem State.raise_steps (s : State) (cause : Cause) : (s.raise cause).steps = s.steps := rfl
@[simp] theorem State.raise_pm (s : State) (cause : Cause) : (s.raise cause).pm = s.pm := rfl
@[simp] theorem State.raise_len (s : State) (cause : Cause) : (s.raise cause).len = s.len := rfl
@[simp] theorem State.raise_loaded (s : State) (cause : Cause) : (s.raise cause).loaded = s.loaded := rfl
@[simp] theorem State.raise_ceiling (s : State) (cause : Cause) : (s.raise cause).ceiling = s.ceiling := rfl

@[simp] theorem State.halt_a (s : State) : (s.halt).a = s.a := rfl
@[simp] theorem State.halt_b (s : State) : (s.halt).b = s.b := rfl
@[simp] theorem State.halt_c (s : State) : (s.halt).c = s.c := rfl
@[simp] theorem State.halt_pc (s : State) : (s.halt).pc = s.pc := rfl
@[simp] theorem State.halt_out (s : State) : (s.halt).out = s.out := rfl
@[simp] theorem State.halt_status (s : State) : (s.halt).status = .halted := rfl
@[simp] theorem State.halt_steps (s : State) : (s.halt).steps = s.steps := rfl
@[simp] theorem State.halt_pm (s : State) : (s.halt).pm = s.pm := rfl
@[simp] theorem State.halt_len (s : State) : (s.halt).len = s.len := rfl
@[simp] theorem State.halt_loaded (s : State) : (s.halt).loaded = s.loaded := rfl
@[simp] theorem State.halt_ceiling (s : State) : (s.halt).ceiling = s.ceiling := rfl

@[simp] theorem State.append_a (s : State) (v : OutVal) : (s.append v).a = s.a := rfl
@[simp] theorem State.append_b (s : State) (v : OutVal) : (s.append v).b = s.b := rfl
@[simp] theorem State.append_c (s : State) (v : OutVal) : (s.append v).c = s.c := rfl
@[simp] theorem State.append_pc (s : State) (v : OutVal) : (s.append v).pc = s.pc := rfl
@[simp] theorem State.append_out (s : State) (v : OutVal) : (s.append v).out = s.out ++ [v] := rfl
@[simp] theorem State.append_status (s : State) (v : OutVal) : (s.append v).status = s.status := rfl
@[simp] theorem State.append_steps (s : State) (v : OutVal) : (s.append v).steps = s.steps := rfl
@[simp] theorem State.append_pm (s : State) (v : OutVal) : (s.append v).pm = s.pm := rfl
@[simp] theorem State.append_len (s : State) (v : OutVal) : (s.append v).len = s.len := rfl
@[simp] theorem State.append_loaded (s : State) (v : OutVal) : (s.append v).loaded = s.loaded := rfl
@[simp] theorem State.append_ceiling (s : State) (v : OutVal) : (s.append v).ceiling = s.ceiling := rfl

@[simp] theorem State.loadProgram_a (s : State) (p : List Elem) : (s.loadProgram p).a = s.a := rfl
@[simp] theorem State.loadProgram_b (s : State) (p : List Elem) : (s.loadProgram p).b = s.b := rfl
@[simp] theorem State.loadProgram_c (s : State) (p : List Elem) : (s.loadProgram p).c = s.c := rfl
@[simp] theorem State.loadProgram_pc (s : State) (p : List Elem) : (s.loadProgram p).pc = s.pc := rfl
@[simp] theorem State.loadProgram_out (s : State) (p : List Elem) : (s.loadProgram p).out = s.out := rfl
@[simp] theorem State.loadProgram_status (s : State) (p : List Elem) : (s.loadProgram p).status = s.status := rfl
@[simp] theorem State.loadProgram_steps (s : State) (p : List Elem) : (s.loadProgram p).steps = s.steps := rfl
@[simp] theorem State.loadProgram_pm (s : State) (p : List Elem) : (s.loadProgram p).pm = Memory.ofElems p := rfl
@[simp] theorem State.loadProgram_len (s : State) (p : List Elem) : (s.loadProgram p).len = p.length := rfl
@[simp] theorem State.loadProgram_loaded (s : State) (p : List Elem) : (s.loadProgram p).loaded = true := rfl
@[simp] theorem State.loadProgram_ceiling (s : State) (p : List Elem) : (s.loadProgram p).ceiling = s.ceiling := rfl

@[simp] theorem State.startRun_a (s : State) (x y z : Word) : (s.startRun x y z).a = x := rfl
@[simp] theorem State.startRun_b (s : State) (x y z : Word) : (s.startRun x y z).b = y := rfl
@[simp] theorem State.startRun_c (s : State) (x y z : Word) : (s.startRun x y z).c = z := rfl
@[simp] theorem State.startRun_pc (s : State) (x y z : Word) : (s.startRun x y z).pc = 0 := rfl
@[simp] theorem State.startRun_out (s : State) (x y z : Word) : (s.startRun x y z).out = [] := rfl
@[simp] theorem State.startRun_status (s : State) (x y z : Word) : (s.startRun x y z).status = startStatus s.program := rfl
@[simp] theorem State.startRun_steps (s : State) (x y z : Word) : (s.startRun x y z).steps = 0 := rfl
@[simp] theorem State.startRun_pm (s : State) (x y z : Word) : (s.startRun x y z).pm = s.pm := rfl
@[simp] theorem State.startRun_len (s : State) (x y z : Word) : (s.startRun x y z).len = s.len := rfl
@[simp] theorem State.startRun_loaded (s : State) (x y z : Word) : (s.startRun x y z).loaded = s.loaded := rfl
@[simp] theorem State.startRun_ceiling (s : State) (x y z : Word) : (s.startRun x y z).ceiling = s.ceiling := rfl

@[simp] theorem State.setReg_pc (s : State) (r : Reg) (v : Word) : (s.setReg r v).pc = s.pc := by cases r <;> rfl
@[simp] theorem State.setReg_out (s : State) (r : Reg) (v : Word) : (s.setReg r v).out = s.out := by cases r <;> rfl
@[simp] theorem State.setReg_status (s : State) (r : Reg) (v : Word) : (s.setReg r v).status = s.status := by cases r <;> rfl
@[simp] theorem State.setReg_steps (s : State) (r : Reg) (v : Word) : (s.setReg r v).steps = s.steps := by cases r <;> rfl
@[simp] theorem State.setReg_pm (s : State) (r : Reg) (v : Word) : (s.setReg r v).pm = s.pm := by cases r <;> rfl
@[simp] theorem State.setReg_len (s : State) (r : Reg) (v : Word) : (s.setReg r v).len = s.len := by cases r <;> rfl
@[simp] theorem State.setReg_loaded (s : State) (r : Reg) (v : Word) : (s.setReg r v).loaded = s.loaded := by cases r <;> rfl
@[simp] theorem State.setReg_ceiling (s : State) (r : Reg) (v : Word) : (s.setReg r v).ceiling = s.ceiling := by cases r <;> rfl

@[simp] theorem State.setReg_A_a (s : State) (v : Word) : (s.setReg .A v).a = v := rfl
@[simp] theorem State.setReg_B_a (s : State) (v : Word) : (s.setReg .B v).a = s.a := rfl
@[simp] theorem State.setReg_C_a (s : State) (v : Word) : (s.setReg .C v).a = s.a := rfl
@[simp] theorem State.setReg_A_b (s : State) (v : Word) : (s.setReg .A v).b = s.b := rfl
@[simp] theorem State.setReg_B_b (s : State) (v : Word) : (s.setReg .B v).b = v := rfl
@[simp] theorem State.setReg_C_b (s : State) (v : Word) : (s.setReg .C v).b = s.b := rfl
@[simp] theorem State.setReg_A_c (s : State) (v : Word) : (s.setReg .A v).c = s.c := rfl
@[simp] theorem State.setReg_B_c (s : State) (v : Word) : (s.setReg .B v).c = s.c := rfl
@[simp] theorem State.setReg_C_c (s : State) (v : Word) : (s.setReg .C v).c = v := rfl

@[simp] theorem State.reg_A (s : State) : s.reg .A = s.a := rfl
@[simp] theorem State.reg_B (s : State) : s.reg .B = s.b := rfl
@[simp] theorem State.reg_C (s : State) : s.reg .C = s.c := rfl

/-- A read after a write of the same register gives the value written. -/
@[simp] theorem State.reg_setReg_same (s : State) (r : Reg) (v : Word) : (s.setReg r v).reg r = v := by
  cases r <;> rfl

/-- A write leaves every other register alone. -/
theorem State.reg_setReg_other (s : State) {r q : Reg} (v : Word) (h : q ≠ r) :
    (s.setReg r v).reg q = s.reg q := by
  cases r <;> cases q <;> first | rfl | exact absurd rfl h

@[simp] theorem State.reg_advance (s : State) (r : Reg) : s.advance.reg r = s.reg r := by cases r <;> rfl
@[simp] theorem State.reg_retireAt (s : State) (t : Nat) (r : Reg) : (s.retireAt t).reg r = s.reg r := by
  cases r <;> rfl
@[simp] theorem State.reg_raise (s : State) (cause : Cause) (r : Reg) : (s.raise cause).reg r = s.reg r := by
  cases r <;> rfl
@[simp] theorem State.reg_append (s : State) (v : OutVal) (r : Reg) : (s.append v).reg r = s.reg r := by
  cases r <;> rfl

/-- What an index reads as depends on the memory and the length alone. -/
theorem State.readElem_congr {s t : State} (hp : t.pm = s.pm) (hl : t.len = s.len) (i : Nat) :
    t.readElem i = s.readElem i := by
  simp only [State.readElem, hp, hl]

/-- The program depends on the memory and the length alone. -/
theorem State.program_congr {s t : State} (hp : t.pm = s.pm) (hl : t.len = s.len) : t.program = s.program := by
  simp only [State.program, hp, hl]

end Sys2Proof.Machine
end

