-- ==== Sys2Proof/Laws/Exec.lean ====
section
/-! SUPPORT. What an instruction can do, said once. -/

namespace Sys2Proof.Machine

open Sys2Proof

/-- Every next state of an instruction is one of these: a register written, a value appended, the pc
moved, or a fault taken with nothing else changed. -/
inductive Effect (s : State) : State → Prop where
  | wrote (r : Reg) (v : Word) : Effect s (s.setReg r v).advance
  | emitted (v : OutVal) : Effect s (s.append v).advance
  | fell : Effect s s.advance
  | jumped (t : Nat) (ha : s.a ≠ 0) (ht : t % 2 = 0) : Effect s (s.retireAt t)
  | misaligned (t : Nat) (ha : s.a ≠ 0) (ht : t % 2 = 1) : Effect s (s.raise (.misalignedJump s.pc t))
  | reserved : Effect s (s.raise (.malformedProgram .comboReserved (s.pc + 1)))

/-- No instruction stops, and its next state is one of the effects. -/
theorem exec_effect (i : Instr) (s : State) : ∃ t, exec i s = .next t ∧ Effect s t := by
  cases i with
  | shra c => exact ⟨_, rfl, .wrote _ _⟩
  | xorl n => exact ⟨_, rfl, .wrote _ _⟩
  | mod8 c => exact ⟨_, rfl, .wrote _ _⟩
  | jnz t =>
    by_cases ha : s.a = 0
    · exact ⟨_, by simp [exec, execJnz, aNonzero, ha], .fell⟩
    · have hn : aNonzero s = true := decide_eq_true ha
      by_cases ht : t % 2 = 1
      · exact ⟨_, by simp [exec, execJnz, hn, ht], .misaligned t ha ht⟩
      · exact ⟨_, by simp [exec, execJnz, hn, ht], .jumped t ha (by omega)⟩
  | xorc n => exact ⟨_, rfl, .wrote _ _⟩
  | emit c => exact ⟨_, rfl, .emitted _⟩
  | shrb c => exact ⟨_, rfl, .wrote _ _⟩
  | shrc c => exact ⟨_, rfl, .wrote _ _⟩
  | illegalShra => exact ⟨_, rfl, .reserved⟩
  | illegalMod8 => exact ⟨_, rfl, .reserved⟩
  | illegalEmit => exact ⟨_, rfl, .reserved⟩
  | illegalShrb => exact ⟨_, rfl, .reserved⟩
  | illegalShrc => exact ⟨_, rfl, .reserved⟩

/-- The inversion of `exec_effect`. -/
theorem effect_of_exec {i : Instr} {s t : State} (h : exec i s = .next t) : Effect s t := by
  obtain ⟨u, hu, he⟩ := exec_effect i s
  rw [hu] at h
  cases h
  exact he

end Sys2Proof.Machine
end

