-- ==== Sys2Proof/Laws/Memory.lean ====
section
/-! SUPPORT. The laws of program memory: every operation keeps the canonical form, and what a read gives. -/

namespace Sys2Proof.Machine

open Sys2Proof

theorem Memory.wfFrom_cons {lo k : Nat} {v : Elem} {rest : Memory} :
    Memory.wfFrom lo ((k, v) :: rest) = true ↔
      lo ≤ k ∧ v ≠ Memory.unlisted ∧ Memory.wfFrom (k + 1) rest = true := by
  simp [Memory.wfFrom, and_assoc]

/-- The canonical form from an index is the canonical form from any lower one. -/
theorem Memory.wfFrom_mono {m : Memory} {lo hi : Nat} (h : lo ≤ hi) (hm : Memory.wfFrom hi m = true) :
    Memory.wfFrom lo m = true := by
  cases m with
  | nil => rfl
  | cons cell rest =>
    obtain ⟨k, v⟩ := cell
    obtain ⟨h1, h2, h3⟩ := Memory.wfFrom_cons.1 hm
    exact Memory.wfFrom_cons.2 ⟨Nat.le_trans h h1, h2, h3⟩

/-- Below the first index of the canonical form nothing is listed. -/
theorem Memory.read_below {m : Memory} {lo i : Nat} (hm : Memory.wfFrom lo m = true) (h : i < lo) :
    Memory.read m i = Memory.unlisted := by
  induction m generalizing lo with
  | nil => rfl
  | cons cell rest ih =>
    obtain ⟨k, v⟩ := cell
    obtain ⟨h1, -, h3⟩ := Memory.wfFrom_cons.1 hm
    have hne : i ≠ k := by omega
    simpa [Memory.read, hne] using ih h3 (by omega)

theorem Memory.wfFrom_write {m : Memory} {lo i : Nat} (v : Elem) (hm : Memory.wfFrom lo m = true)
    (h : lo ≤ i) : Memory.wfFrom lo (Memory.write m i v) = true := by
  induction m generalizing lo with
  | nil =>
    by_cases hv : v = Memory.unlisted
    · simp [Memory.write, hv, Memory.wfFrom]
    · simp [Memory.write, hv, Memory.wfFrom, h]
  | cons cell rest ih =>
    obtain ⟨k, w⟩ := cell
    obtain ⟨h1, h2, h3⟩ := Memory.wfFrom_cons.1 hm
    rcases Nat.lt_trichotomy i k with hik | hik | hik
    · by_cases hv : v = Memory.unlisted
      · simpa only [Memory.write, if_pos hik, if_pos hv] using hm
      · simpa only [Memory.write, if_pos hik, if_neg hv] using
          Memory.wfFrom_cons.2 ⟨h, hv, Memory.wfFrom_cons.2 ⟨hik, h2, h3⟩⟩
    · subst hik
      by_cases hv : v = Memory.unlisted
      · simpa only [Memory.write, if_neg (Nat.lt_irrefl i), if_true, if_pos hv] using
          Memory.wfFrom_mono (by omega) h3
      · simpa only [Memory.write, if_neg (Nat.lt_irrefl i), if_true, if_neg hv] using
          Memory.wfFrom_cons.2 ⟨h, hv, h3⟩
    · simpa only [Memory.write, if_neg (show ¬ i < k by omega), if_neg (show ¬ i = k by omega)] using
        Memory.wfFrom_cons.2 ⟨h1, h2, ih h3 hik⟩

/-- A write keeps the canonical form. -/
theorem Memory.wf_write {m : Memory} (hm : m.wf = true) (i : Nat) (v : Elem) :
    (Memory.write m i v).wf = true :=
  Memory.wfFrom_write v hm (Nat.zero_le i)

theorem Memory.read_write_from {m : Memory} {lo : Nat} (hm : Memory.wfFrom lo m = true) (i j : Nat)
    (v : Elem) : Memory.read (Memory.write m i v) j = if j = i then v else Memory.read m j := by
  induction m generalizing lo with
  | nil =>
    by_cases hv : v = Memory.unlisted <;> by_cases hj : j = i <;> simp [Memory.write, Memory.read, hv, hj]
  | cons cell rest ih =>
    obtain ⟨k, w⟩ := cell
    obtain ⟨-, -, h3⟩ := Memory.wfFrom_cons.1 hm
    rcases Nat.lt_trichotomy i k with hik | hik | hik
    · by_cases hv : v = Memory.unlisted
      · by_cases hj : j = i
        · have hjk : j ≠ k := by omega
          have hlow := Memory.read_below h3 (show j < k + 1 by omega)
          rw [Memory.write, if_pos hik, if_pos hv, if_pos hj, Memory.read, if_neg hjk, hlow, hv]
        · rw [Memory.write, if_pos hik, if_pos hv, if_neg hj]
      · rw [Memory.write, if_pos hik, if_neg hv, Memory.read]
    · subst hik
      by_cases hv : v = Memory.unlisted
      · rw [Memory.write, if_neg (Nat.lt_irrefl i), if_pos rfl, if_pos hv]
        by_cases hj : j = i
        · rw [if_pos hj, hv, Memory.read_below h3 (by omega)]
        · rw [if_neg hj, Memory.read, if_neg hj]
      · rw [Memory.write, if_neg (Nat.lt_irrefl i), if_pos rfl, if_neg hv, Memory.read, Memory.read]
        by_cases hj : j = i <;> simp [hj]
    · rw [Memory.write, if_neg (by omega), if_neg (by omega), Memory.read, ih h3, Memory.read]
      by_cases hj : j = i
      · have hjk : j ≠ k := by omega
        simp [hj]; omega
      · simp [hj]

/-- A read after a write: the element written, and every other element as before. -/
theorem Memory.read_write {m : Memory} (hm : m.wf = true) (i j : Nat) (v : Elem) :
    (Memory.write m i v).read j = if j = i then v else m.read j :=
  Memory.read_write_from hm i j v

theorem Memory.wfFrom_ofElemsFrom (i : Nat) (p : List Elem) :
    Memory.wfFrom i (Memory.ofElemsFrom i p) = true := by
  induction p generalizing i with
  | nil => rfl
  | cons e es ih => exact Memory.wfFrom_write e (Memory.wfFrom_mono (Nat.le_succ i) (ih (i + 1))) (Nat.le_refl i)

/-- A loaded memory is in canonical form. -/
theorem Memory.wf_ofElems (p : List Elem) : (Memory.ofElems p).wf = true :=
  Memory.wfFrom_ofElemsFrom 0 p

theorem Memory.read_ofElemsFrom (i : Nat) (p : List Elem) (j : Nat) :
    Memory.read (Memory.ofElemsFrom i p) (i + j) = p.getD j Memory.unlisted := by
  induction p generalizing i j with
  | nil => rfl
  | cons e es ih =>
    rw [Memory.ofElemsFrom, Memory.read_write_from (Memory.wfFrom_ofElemsFrom (i + 1) es)]
    cases j with
    | zero => simp
    | succ n =>
      have := ih (i + 1) n
      rw [show i + 1 + n = i + (n + 1) by omega] at this
      simp [this]

/-- A loaded memory holds the program's elements in order (R32). -/
theorem Memory.read_ofElems (p : List Elem) (j : Nat) :
    (Memory.ofElems p).read j = p.getD j Memory.unlisted := by
  simpa [Memory.ofElems] using Memory.read_ofElemsFrom 0 p j

/-- What a write lists was listed before or stands at the index written. -/
theorem Memory.mem_write {m : Memory} {i : Nat} {v : Elem} {cell : Host.Cell}
    (h : cell ∈ Memory.write m i v) : cell ∈ m ∨ cell.1 = i := by
  induction m with
  | nil =>
    by_cases hv : v = Memory.unlisted
    · simp [Memory.write, hv] at h
    · simp [Memory.write, hv] at h
      simp [h]
  | cons head rest ih =>
    obtain ⟨k, w⟩ := head
    rw [Memory.write] at h
    split at h
    · split at h
      · exact .inl h
      · rcases List.mem_cons.1 h with h | h
        · simp [h]
        · exact .inl h
    · split at h
      · split at h
        · exact .inl (List.mem_cons_of_mem _ h)
        · rcases List.mem_cons.1 h with h | h
          · simp [h]
          · exact .inl (List.mem_cons_of_mem _ h)
      · rcases List.mem_cons.1 h with h | h
        · simp [h]
        · rcases ih h with h | h
          · exact .inl (List.mem_cons_of_mem _ h)
          · exact .inr h

theorem Memory.mem_ofElemsFrom {i : Nat} {p : List Elem} {cell : Host.Cell}
    (h : cell ∈ Memory.ofElemsFrom i p) : cell.1 < i + p.length := by
  induction p generalizing i with
  | nil => simp [Memory.ofElemsFrom] at h
  | cons e es ih =>
    rcases Memory.mem_write h with h | h
    · have := ih h
      simp only [List.length_cons]
      omega
    · simp only [List.length_cons]
      omega

/-- A loaded memory lists nothing beyond the program. -/
theorem Memory.mem_ofElems {p : List Elem} {cell : Host.Cell} (h : cell ∈ Memory.ofElems p) :
    cell.1 < p.length := by
  simpa using Memory.mem_ofElemsFrom h

@[simp] theorem State.program_length (s : State) : s.program.length = s.len := by
  simp [State.program]

/-- The element the fetch reads is the program's. -/
theorem State.readElem_eq (s : State) (i : Nat) : s.readElem i = s.program[i]? := by
  by_cases h : i < s.len <;> simp [State.readElem, State.program, h]

end Sys2Proof.Machine
end

