-- ==== Sys2Proof/Laws/Operands.lean ====
section
/-! SUPPORT. A combo operand depends on the one register it names. -/

namespace Sys2Proof.Machine

open Sys2Proof

/-- Writing a register a combo operand does not name leaves its value. -/
theorem combo_setReg_other {src : ComboSrc} {r : Reg} (v : Word) (s : State) (h : src ≠ .reg r) :
    combo src (s.setReg r v) = combo src s := by
  cases src with
  | lit n => rfl
  | reg q => exact State.reg_setReg_other s v (fun e => h (by rw [e]))

/-- A combo operand that names a register has the register's whole value. -/
@[simp] theorem combo_reg (r : Reg) (s : State) : combo (.reg r) s = s.reg r := rfl

end Sys2Proof.Machine
end

