-- ==== Sys2Proof/Laws/PerInstr.lean ====
section
/-! SUPPORT. What holds of every instruction as syntax: both elements of a well-formed instruction's encoding are
legal fields (R47, R53). -/

namespace Sys2Proof.Laws.FieldRange

open Sys2Proof

/-- Both elements of the encoding are at most 7. -/
def Statement (i : Instr) : Prop :=
  i.WellFormed = true → (encode i).1 ≤ Config.fieldMax ∧ (encode i).2 ≤ Config.fieldMax

theorem combo_le {c : ComboSrc} (h : c.WellFormed = true) : encodeCombo c ≤ 6 := by
  cases c with
  | lit n =>
    have : n ≤ 3 := of_decide_eq_true h
    simp only [encodeCombo]
    omega
  | reg r => cases r <;> decide

theorem shra (c : ComboSrc) : Statement (.shra c) :=
  fun h => ⟨by simp [encode, Config.fieldMax], Nat.le_succ_of_le (combo_le h)⟩

theorem xorl (n : Nat) : Statement (.xorl n) :=
  fun h => ⟨by simp [encode, Config.fieldMax], of_decide_eq_true h⟩

theorem mod8 (c : ComboSrc) : Statement (.mod8 c) :=
  fun h => ⟨by simp [encode, Config.fieldMax], Nat.le_succ_of_le (combo_le h)⟩

theorem jnz (t : Nat) : Statement (.jnz t) :=
  fun h => ⟨by simp [encode, Config.fieldMax], of_decide_eq_true h⟩

theorem xorc (n : Nat) : Statement (.xorc n) :=
  fun h => ⟨by simp [encode, Config.fieldMax], of_decide_eq_true h⟩

theorem emit (c : ComboSrc) : Statement (.emit c) :=
  fun h => ⟨by simp [encode, Config.fieldMax], Nat.le_succ_of_le (combo_le h)⟩

theorem shrb (c : ComboSrc) : Statement (.shrb c) :=
  fun h => ⟨by simp [encode, Config.fieldMax], Nat.le_succ_of_le (combo_le h)⟩

theorem shrc (c : ComboSrc) : Statement (.shrc c) :=
  fun h => ⟨by simp [encode, Config.fieldMax], Nat.le_succ_of_le (combo_le h)⟩

theorem illegalShra : Statement .illegalShra := fun _ => by decide

theorem illegalMod8 : Statement .illegalMod8 := fun _ => by decide

theorem illegalEmit : Statement .illegalEmit := fun _ => by decide

theorem illegalShrb : Statement .illegalShrb := fun _ => by decide

theorem illegalShrc : Statement .illegalShrc := fun _ => by decide

end Sys2Proof.Laws.FieldRange
end

