-- ==== Sys2Proof/Laws/Step.lean ====
section
/-! SUPPORT. What a step can do, said once. -/

namespace Sys2Proof.Machine

open Sys2Proof

/-- What the fetch answers: two elements at an even pc, both inside the program. -/
theorem fetchPair_ok {s : State} {o p : Elem} :
    fetchPair s = .ok (o, p) ↔ s.pc % 2 = 0 ∧ s.readElem s.pc = some o ∧ s.readElem (s.pc + 1) = some p := by
  by_cases he : s.pc % 2 = 1
  · simp [fetchPair, he]
  · have he0 : s.pc % 2 = 0 := by omega
    by_cases hl : s.pc + 2 ≤ s.len
    · have h1 : s.pc < s.len := by omega
      have h2 : s.pc + 1 < s.len := by omega
      simp [fetchPair, he0, State.memRead, Config.ilen, hl, State.readElem, h1, h2, List.range_succ]
    · simp [fetchPair, he0, State.memRead, Config.ilen, hl, State.readElem]
      omega

/-- Every next state of a step comes from one of these turns (R66). -/
inductive Turned (s : State) : State → Prop where
  | halted (hl : s.len ≤ s.pc) : Turned s s.halt
  | ceiling (hl : s.pc < s.len) (hc : s.ceiling = some s.steps) : Turned s (s.raise .stepCeiling)
  | undecoded {o p : Elem} {e : DecodeError} (hl : s.pc < s.len) (hc : s.ceiling ≠ some s.steps)
      (he : s.pc % 2 = 0) (ho : s.readElem s.pc = some o) (hp : s.readElem (s.pc + 1) = some p)
      (hd : decode o.toNat p.toNat = .error e) :
      Turned s (s.raise (.malformedProgram (decodeViolation e s.pc).1 (decodeViolation e s.pc).2))
  | executed {t : State} {o p : Elem} {i : Instr} (hl : s.pc < s.len) (hc : s.ceiling ≠ some s.steps)
      (he : s.pc % 2 = 0) (ho : s.readElem s.pc = some o) (hp : s.readElem (s.pc + 1) = some p)
      (hd : decode o.toNat p.toNat = .ok i) (ht : exec i s = .next t) : Turned s t

/-- A step answers a next state in `Running` only, and by one of the turns. -/
theorem step_next {s t : State} (h : step s = .next t) : s.status = .running ∧ Turned s t := by
  have hr : s.status = .running := by
    cases hs : s.status <;> simp [step, turn, hs] at h ⊢
  refine ⟨hr, ?_⟩
  simp only [step, turn, hr, runningTurn] at h
  by_cases hl : s.len ≤ s.pc
  · simp only [if_pos hl] at h
    cases h
    exact .halted hl
  · simp only [if_neg hl] at h
    by_cases hc : s.ceiling = some s.steps
    · simp only [State.ceilingReached, hc, decide_true, if_true] at h
      cases h
      exact .ceiling (by omega) hc
    · simp only [State.ceilingReached, hc, decide_false, Bool.false_eq_true, if_false] at h
      cases hf : fetchPair s with
      | error f => simp [hf] at h
      | ok pair =>
        obtain ⟨o, p⟩ := pair
        obtain ⟨he, ho, hp⟩ := fetchPair_ok.1 hf
        simp only [hf, decodeTurn] at h
        cases hd : decode o.toNat p.toNat with
        | error e =>
          simp only [hd] at h
          cases h
          exact .undecoded (by omega) hc he ho hp hd
        | ok i =>
          simp only [hd] at h
          exact .executed (by omega) hc he ho hp hd h

end Sys2Proof.Machine
end

