-- ==== Sys2Proof/Laws/Run.lean ====
section
/-! SUPPORT. What a step and the host keep, and how a run unfolds. -/

namespace Sys2Proof.Machine

open Sys2Proof

/-- No effect of an instruction touches the program or a parameter. -/
theorem Effect.keeps {s t : State} (h : Effect s t) :
    t.pm = s.pm ∧ t.len = s.len ∧ t.loaded = s.loaded ∧ t.ceiling = s.ceiling := by
  cases h <;> simp

/-- No step touches the program or a parameter. -/
theorem step_keeps {s t : State} (h : step s = .next t) :
    t.pm = s.pm ∧ t.len = s.len ∧ t.loaded = s.loaded ∧ t.ceiling = s.ceiling := by
  cases (step_next h).2 with
  | executed hl hc he ho hp hd ht => exact (effect_of_exec ht).keeps
  | halted hl => simp
  | ceiling hl hc => simp
  | undecoded hl hc he ho hp hd => simp

/-- A run does not go on where no step is defined. -/
theorem runSteps_of_stopped {s : State} (h : s.status ≠ .running) (k : Nat) : runSteps k s = s := by
  cases k with
  | zero => rfl
  | succ k =>
    rw [runSteps]
    cases hs : step s with
    | next t => exact absurd (step_next hs).1 h
    | fault r => rfl
    | refused r => rfl

/-- A run takes its first step and goes on from there. -/
theorem runSteps_of_next {s t : State} (h : step s = .next t) (k : Nat) :
    runSteps (k + 1) s = runSteps k t := by
  rw [runSteps, h]

/-- The inversion of `hostLoad`. -/
theorem hostLoad_next {p : List Elem} {s t : State} (h : hostLoad p s = .next t) :
    s.status ≠ .running ∧ t = s.loadProgram p := by
  unfold hostLoad at h
  split at h
  · cases h
  · cases h
    exact ⟨‹_›, rfl⟩

/-- The inversion of `hostStart`. -/
theorem hostStart_next {a b c : Word} {s t : State} (h : hostStart a b c s = .next t) :
    s.status ≠ .running ∧ s.loaded = true ∧ t = s.startRun a b c := by
  unfold hostStart at h
  split at h
  · cases h
  · split at h
    · cases h
      exact ⟨‹_›, ‹_›, rfl⟩
    · cases h

end Sys2Proof.Machine
end

