-- ==== Sys2Proof/Tests/Slice0.lean ====
section
/-! SUPPORT. Small tests: expected values are the spec's own encodings (30_encoding.md), vectors (95_test_vectors.md)
and tables; and for every statement with hypotheses a witness that meets them. -/

namespace Sys2Proof.Tests

open Sys2Proof Sys2Proof.Machine

/-- The state of the vectors S2: A = 0o345, B = 5, C = 3. -/
def s2 : State := { State.reset with a := 229, b := 5, c := 3 }

/-- A state with the given registers. -/
def regs (a b c : Word) : State := { State.reset with a := a, b := b, c := c }

/-- The state after the instruction of a table word has run in place of the next one. -/
def stepped (w : Nat) (s : State) : Option State :=
  match step (s.withFetchWord 8 w) with
  | .next t => some t
  | .fault _ => none
  | .refused _ => none

/- The checks of WellFormed, each with a term it refuses (R53) -/

theorem test_wf_shra : (Instr.shra (.lit 4)).WellFormed = false := by decide
theorem test_wf_xorl : (Instr.xorl 8).WellFormed = false := by decide
theorem test_wf_mod8 : (Instr.mod8 (.lit 4)).WellFormed = false := by decide
theorem test_wf_jnz : (Instr.jnz 8).WellFormed = false := by decide
theorem test_wf_xorc : (Instr.xorc 8).WellFormed = false := by decide
theorem test_wf_emit : (Instr.emit (.lit 4)).WellFormed = false := by decide
theorem test_wf_shrb : (Instr.shrb (.lit 4)).WellFormed = false := by decide
theorem test_wf_shrc : (Instr.shrc (.lit 4)).WellFormed = false := by decide

/- The decoding of every constructor, each by a word written out from the patterns of R54 and R57 -/

theorem test_decode_shra : decodeTableWord 8 0b000101 = some (.shra (.reg .B)) := by decide
theorem test_decode_xorl : decodeTableWord 8 0b001110 = some (.xorl 6) := by decide
theorem test_decode_mod8 : decodeTableWord 8 0b010100 = some (.mod8 (.reg .A)) := by decide
theorem test_decode_jnz : decodeTableWord 8 0b011100 = some (.jnz 4) := by decide
theorem test_decode_xorc : decodeTableWord 8 0b100001 = some (.xorc 1) := by decide
theorem test_decode_emit : decodeTableWord 8 0b101110 = some (.emit (.reg .C)) := by decide
theorem test_decode_shrb : decodeTableWord 8 0b110010 = some (.shrb (.lit 2)) := by decide
theorem test_decode_shrc : decodeTableWord 8 0b111101 = some (.shrc (.reg .B)) := by decide
theorem test_decode_illegalShra : decodeTableWord 8 0b000111 = some .illegalShra := by decide
theorem test_decode_illegalMod8 : decodeTableWord 8 0b010111 = some .illegalMod8 := by decide
theorem test_decode_illegalEmit : decodeTableWord 8 0b101111 = some .illegalEmit := by decide
theorem test_decode_illegalShrb : decodeTableWord 8 0b110111 = some .illegalShrb := by decide
theorem test_decode_illegalShrc : decodeTableWord 8 0b111111 = some .illegalShrc := by decide

/-- R54: of the 64 instruction words 59 are legal and 5 are illegal. -/
theorem test_word_count :
    ((List.range 64).filterMap (decodeTableWord 8)).countP (fun i => !i.isIllegal) = 59 ∧
      ((List.range 64).filterMap (decodeTableWord 8)).countP Instr.isIllegal = 5 := by decide

/-- R47: the document's own element of value 9 is not the field 1. -/
theorem test_decode_nine : decode 9 0 = .error .opcodeRange := rfl

/- One step of each instruction: the vectors S2, and a corner case of 95_test_vectors.md section 2 -/

theorem test_shra : (stepped 0b000101 s2).map State.a = some 7 := by decide
theorem test_shra_not_modulo : (stepped 0b000110 (regs 12345 0 0x100000001)).map State.a = some 0 := by decide
theorem test_xorl : (stepped 0b001110 s2).map State.b = some 3 := by decide
theorem test_xorl_low_bits :
    (stepped 0b001111 (regs 0 0xFFFFFFFFFFFFFFFF 0)).map State.b = some 0xFFFFFFFFFFFFFFF8 := by decide
theorem test_mod8 : (stepped 0b010100 s2).map State.b = some 5 := by decide
theorem test_mod8_full : (stepped 0b010101 (regs 0 0xFFFFFFFFFFFFFFFF 0)).map State.b = some 7 := by decide
theorem test_jnz : (stepped 0b011100 s2).map State.pc = some 4 := by decide
theorem test_jnz_odd : (stepped 0b011001 (regs 1 0 0)).map (fun t => (t.status, t.pc, t.steps)) =
    some (.faulted (.misalignedJump 0 1), 0, 0) := by decide
theorem test_xorc : (stepped 0b100001 s2).map State.b = some 6 := by decide
theorem test_xorc_wide : (stepped 0b100000 (regs 0 2024 43690)).map State.b = some 44354 := by decide
theorem test_emit : (stepped 0b101110 s2).map State.out = some [3] := by decide
theorem test_emit_order :
    (stepped 0b101100 { regs 10 0 0 with out := [0, 1] }).map State.out = some [0, 1, 2] := by decide
theorem test_shrb : (stepped 0b110010 s2).map (fun t => (t.a, t.b)) = some (229, 57) := by decide
theorem test_shrb_self : (stepped 0b110101 s2).map State.b = some 7 := by decide
theorem test_shrc : (stepped 0b111101 s2).map (fun t => (t.a, t.c)) = some (229, 7) := by decide
theorem test_shrc_top : (stepped 0b111101 (regs 0xFFFFFFFFFFFFFFFF 63 0)).map State.c = some 1 := by decide
theorem test_illegalShra : (stepped 0b000111 s2).map (fun t => (t.status, t.pc, t.steps)) =
    some (.faulted (.malformedProgram .comboReserved 1), 0, 0) := by decide
theorem test_illegalMod8 : (stepped 0b010111 s2).map State.status =
    some (.faulted (.malformedProgram .comboReserved 1)) := by decide
theorem test_illegalEmit : (stepped 0b101111 s2).map State.out = some [] := by decide
theorem test_illegalShrb : (stepped 0b110111 s2).map State.b = some 5 := by decide
theorem test_illegalShrc : (stepped 0b111111 s2).map State.c = some 3 := by decide

/- The start check, the vectors of 95_test_vectors.md section 3.1 -/

theorem test_check_odd_first : firstViolation [9, 0, 1] = some (.oddLength, 3) := by decide
theorem test_check_opcode_first : firstViolation [9, 9] = some (.opcodeRange, 0) := by decide
theorem test_check_operand : firstViolation [0, 0, 3, 255] = some (.operandRange, 3) := by decide
theorem test_check_unreached : firstViolation [3, 4, 0, 7, 5, 0] = some (.comboReserved, 3) := by decide
theorem test_check_seven_legal : firstViolation [1, 7, 4, 7, 3, 7] = none := by decide

/-- R89, the packed view of `[0, 1, 2]` in section 2.4. -/
theorem test_packed_view : outBits [0, 1, 2] = 136 := by decide

/-- R99, section 3.2: the ceiling test comes before the odd jump. -/
theorem test_ceiling_before_jump :
    (stepped 0b011001 { regs 1 0 0 with ceiling := some 0 }).map State.status =
      some (.faulted .stepCeiling) := by decide

/- Witnesses: states and operands that meet the hypotheses of the statements -/

/-- The shortest endless loop of R78, in progress, under a ceiling of 3. -/
def looping : State := ((State.resetWith (some 3)).loadProgram [3, 0]).startRun 1 0 0

/-- The program `JNZ 0` is well-formed (R78). -/
theorem looping_program_wf : ProgramWF [3, 0] := by
  have at0 : ∀ i, i % 2 = 0 → i < ([3, 0] : List Elem).length → i = 0 := by
    intro i he hl
    simp only [List.length_cons, List.length_nil] at hl
    omega
  refine ⟨by decide, ?_, ?_, ?_⟩
  · intro i he hl
    rw [at0 i he hl]
    decide
  · intro i he hl
    rw [at0 i he hl]
    decide
  · intro i he hl
    rw [at0 i he hl]
    decide

/-- The hypotheses of RunningAlwaysSteps, StepKeepsInv, CheckedRunNeverMalformed, PcStaysEvenAndBounded,
HostKeepsInv and FiniteCeilingRunEnds on the state. -/
theorem test_witness_invariant : Invariant looping ∧ looping.status = .running ∧ looping.ceiling = some 3 := by
  have hr : looping.status = .running := by decide
  refine ⟨⟨by decide, by decide, by decide, by decide, by decide, fun _ => by decide,
    fun _ => looping_program_wf, fun _ => by decide, ?_, ?_, ?_, by decide⟩, hr, by decide⟩
  · intro _ n _
    exact Nat.zero_le n
  · intro sub i h
    rw [hr] at h
    cases h
  · intro p t h
    rw [hr] at h
    cases h

theorem test_witness_StepKeepsInv : step looping = .next { looping with steps := 1 } := rfl

theorem test_witness_PcStays_halted :
    (runSteps 1 (((State.resetWith none).loadProgram []).startRun 0 0 0)).status = .halted := by decide

theorem test_witness_HostKeepsInv :
    hostLoad [3, 0] (State.resetWith none) = .next ((State.resetWith none).loadProgram [3, 0]) ∧
      hostStart 1 0 0 ((State.resetWith none).loadProgram [3, 0]) =
        .next (((State.resetWith none).loadProgram [3, 0]).startRun 1 0 0) := ⟨rfl, rfl⟩

theorem test_witness_DecodeEncodeRoundTrip :
    (Instr.shra (.lit 3)).WellFormed = true ∧ (Instr.xorl 7).WellFormed = true ∧
      (Instr.shra (.lit 3)).isIllegal = false ∧ Instr.illegalShra.isIllegal = true := by decide

theorem test_witness_EncodeOfDecoded : decode 6 1 = .ok (.shrb (.lit 1)) := rfl

theorem test_witness_DecodeRejectsExactly :
    decode 8 0 = .error .opcodeRange ∧ decode 7 8 = .error .operandRange ∧
      decode 7 7 = .ok .illegalShrc ∧ decode 7 6 = .ok (.shrc (.reg .C)) ∧ decode 4 7 = .ok (.xorc 7) :=
  ⟨rfl, rfl, rfl, rfl, rfl⟩

theorem test_witness_ComboOperandValue :
    combo (.lit 3) s2 = 3 ∧ comboSrc 3 = some (.lit 3) ∧ comboSrc 4 = some (.reg .A) ∧
      comboSrc 5 = some (.reg .B) ∧ comboSrc 6 = some (.reg .C) ∧ comboSrc 7 = none ∧ comboSrc 8 = none ∧
      0 ∈ Config.comboOpcodes := by decide

theorem test_witness_LogicalShiftLaw :
    (63 : Word).toNat ≤ 63 ∧ 64 ≤ (64 : Word).toNat ∧ (5 : Word) ≠ 0 := by decide

theorem test_witness_BitwiseLaws : (literal 7).getLsbD 2 = true ∧ (literal 7).getLsbD 3 = false := by decide

theorem test_witness_ShraResult :
    64 ≤ (combo (.reg .B) (regs 1 64 0)).toNat ∧ (regs 0 64 0).a = 0 ∧ combo (.reg .B) (regs 1 64 0) ≠ 0 ∧
      comboSrc 6 = some (.reg .C) ∧ (ComboSrc.reg .B).WellFormed = true := by decide

theorem test_witness_ShrbResult :
    ComboSrc.reg .C ≠ .reg .B ∧ 64 ≤ (combo (.reg .C) (regs 1 0 64)).toNat ∧ comboSrc 0 = some (.lit 0) := by
  decide

theorem test_witness_ShrcResult :
    exec (.shrc (.lit 0)) s2 = .next { s2 with c := 229, pc := 2, steps := 1 } ∧ (229 : Word) ≠ s2.c :=
  ⟨rfl, by decide⟩

theorem test_witness_XorcResult : (regs 0 7 0).c = 0 ∧ (regs 99 1 1).b = (regs 99 1 1).c := by decide

theorem test_witness_JnzResult :
    (regs 0 0 0).a = 0 ∧ (regs 0x8000000000000000 0 0).a.getLsbD 63 = true ∧ 6 % 2 = 0 ∧ 7 % 2 = 1 := by decide

theorem test_witness_EmitResult : 0 < ({ regs 13 0 0 with out := [5] } : State).out.length := by decide

theorem test_witness_InstructionFrame :
    exec (.emit (.reg .A)) s2 = .next { s2 with out := [5], pc := 2, steps := 1 } ∧
      writesOf (.emit (.reg .A)) ≠ some .B ∧
      exec (.jnz 7) (regs 0 0 0) = .next { regs 0 0 0 with pc := 2, steps := 1 } ∧ (regs 0 0 0).a = 0 :=
  ⟨rfl, by decide, rfl, by decide⟩

theorem test_witness_UnreadRegister :
    Reg.B ∉ readsOf (.mod8 (.reg .A)) ∧ writesOf (.mod8 (.reg .A)) = some .B ∧
      Reg.C ∉ readsOf (.mod8 (.reg .A)) ∧ writesOf (.mod8 (.reg .A)) ≠ some .C := by decide

theorem test_witness_StepRunsDecodedInstruction :
    looping.ceiling ≠ some looping.steps ∧ looping.pc % 2 = 0 ∧ looping.readElem looping.pc = some 3 ∧
      looping.readElem (looping.pc + 1) = some 0 ∧ decode (3 : Elem).toNat (0 : Elem).toNat = .ok (.jnz 0) :=
  ⟨by decide, by decide, by decide, by decide, rfl⟩

theorem test_witness_HaltTest :
    ({ looping with pc := 2 } : State).status = .running ∧ ({ looping with pc := 2 } : State).len ≤ 2 ∧
      step { looping with pc := 2 } = .next { looping with pc := 2, status := .halted } :=
  ⟨by decide, by decide, rfl⟩

theorem test_witness_CeilingTest :
    ({ looping with steps := 3 } : State).ceiling = some 3 ∧ looping.pc < looping.len ∧
      step { looping with steps := 3 } = .next { looping with steps := 3, status := .faulted .stepCeiling } :=
  ⟨by decide, by decide, rfl⟩

/-- A run in progress on a pair the start check would have turned away. -/
def onPair (opcode operand : Elem) : State :=
  { (State.resetWith none).loadProgram [opcode, operand] with status := .running }

theorem test_witness_BadPairRaises :
    (onPair 8 0).readElem 0 = some 8 ∧ (onPair 7 8).readElem 1 = some 8 ∧ (onPair 7 7).readElem 1 = some 7 ∧
      (7 : Elem).toNat ∈ Config.comboOpcodes ∧ 7 < (8 : Elem).toNat ∧ (onPair 8 0).status = .running ∧
      (onPair 8 0).ceiling ≠ some (onPair 8 0).steps := by decide

theorem test_witness_MisalignedJump :
    step { onPair 3 7 with a := 5 } =
      .next { onPair 3 7 with a := 5, status := .faulted (.misalignedJump 0 7) } := rfl

theorem test_witness_NoStepOutsideRunning :
    (State.resetWith none).status = .idle ∧ ((State.resetWith none).halt).status = .halted ∧
      ((State.resetWith none).raise .stepCeiling).status = .faulted .stepCeiling ∧
      looping.status = .running := by decide

theorem test_witness_CeilingOnlyCutsRunShort :
    (runSteps 4 looping).status = .faulted .stepCeiling ∧ (runSteps 2 looping).status = .running := by decide

theorem test_witness_FetchReadsLoadedProgram : (runSteps 2 looping).status = .running := by decide

theorem test_witness_StartForgetsEarlierRuns :
    (runSteps 4 looping).ceiling = looping.ceiling ∧
      hostLoad [5, 0] (runSteps 4 looping) = .next ((runSteps 4 looping).loadProgram [5, 0]) ∧
      hostStart 0 0 0 ((runSteps 4 looping).loadProgram [5, 0]) =
        .next (((runSteps 4 looping).loadProgram [5, 0]).startRun 0 0 0) :=
  ⟨by decide, rfl, rfl⟩

theorem test_witness_FirstViolationReported :
    ([7] : List Elem).length % 2 = 1 ∧ 7 < elemValue [1, 7, 8, 0] 2 ∧ 7 < elemValue [1, 7, 0, 8] 3 ∧
      elemValue [1, 7, 0, 7] 3 = 7 ∧ elemValue [1, 7, 0, 7] 2 ∈ Config.comboOpcodes ∧
      elemValue [1, 7, 0, 7] 0 ∉ Config.comboOpcodes := by decide

theorem test_witness_StartState :
    ((State.resetWith none).loadProgram [3, 0]).loaded = true ∧
      ((State.resetWith none).loadProgram [3, 0]).status ≠ .running ∧
      ((State.resetWith none).loadProgram [3, 0]).program = [3, 0] ∧
      ((State.resetWith none).loadProgram [7]).program = [7] := by decide

/-- A program of odd length is not well-formed (R49 condition 1). -/
theorem test_witness_StartState_malformed : ¬ ProgramWF [7] :=
  fun h => absurd h.evenLength (by decide)

theorem test_witness_HostRefusals :
    looping.status = .running ∧ (State.resetWith none).status ≠ .running ∧
      (State.resetWith none).loaded = false := by decide

theorem test_witness_HostReads :
    (runSteps 4 looping).status = .faulted .stepCeiling ∧ (State.resetWith none).status = .idle ∧
      (runSteps 1 { looping with pc := 2 }).status = .halted := by decide

theorem test_witness_CanonicalMemory :
    Memory.wf [(0, 3), (5, 1)] = true ∧ Memory.wf [(0, 0)] = false ∧ Memory.wf [(1, 2), (0, 2)] = false := by
  decide

theorem test_witness_PackedOutputView :
    ([1, 0] : List OutVal).length = ([1, 0] : List OutVal).length ∧
      outBits [1, 0] = outBits [1] ∧ ([1, 0] : List OutVal) ≠ [1] := by decide

end Sys2Proof.Tests
end

/-! PROOFS. What the decoder answers, read back as an encoding (R53, R54, R57). -/

namespace Sys2Proof

/-- A decoded combo instruction is well-formed and encodes to the pair it was read from, when its
constructors are those of the opcode. -/
theorem wellFormed_and_encode_of_decodeCombo {opcode operand : Nat} {mk : ComboSrc → Instr} {illegal i : Instr}
    (h : withOperand operand (decodeCombo mk illegal operand) = .ok i)
    (hmk : ∀ c, (mk c).WellFormed = c.WellFormed ∧ encode (mk c) = (opcode, encodeCombo c))
    (hill : illegal.WellFormed = true ∧ encode illegal = (opcode, 7)) :
    i.WellFormed = true ∧ encode i = (opcode, operand) := by
  obtain ⟨hle, rfl⟩ := withOperand_ok.1 h
  rcases comboSrc_cases operand with ⟨c, hc, hw, rfl, -⟩ | ⟨hc, hge⟩
  · simpa only [decodeCombo, hc, hw] using hmk c
  · obtain rfl : operand = 7 := by omega
    exact hill

/-- The same of an instruction whose field is the operand itself. -/
theorem wellFormed_and_encode_of_withOperand {opcode operand : Nat} {j i : Instr}
    (h : withOperand operand j = .ok i) (hw : operand ≤ 7 → j.WellFormed = true)
    (he : encode j = (opcode, operand)) : i.WellFormed = true ∧ encode i = (opcode, operand) := by
  obtain ⟨hle, rfl⟩ := withOperand_ok.1 h
  exact ⟨hw hle, he⟩

/-- A decoded instruction is well-formed and encodes to the pair it was read from. -/
theorem wellFormed_and_encode_of_decode {opcode operand : Nat} {i : Instr}
    (h : decode opcode operand = .ok i) : i.WellFormed = true ∧ encode i = (opcode, operand) := by
  match opcode, h with
  | 0, h => exact wellFormed_and_encode_of_decodeCombo h (fun _ => ⟨rfl, rfl⟩) ⟨rfl, rfl⟩
  | 1, h => exact wellFormed_and_encode_of_withOperand h decide_eq_true rfl
  | 2, h => exact wellFormed_and_encode_of_decodeCombo h (fun _ => ⟨rfl, rfl⟩) ⟨rfl, rfl⟩
  | 3, h => exact wellFormed_and_encode_of_withOperand h decide_eq_true rfl
  | 4, h => exact wellFormed_and_encode_of_withOperand h decide_eq_true rfl
  | 5, h => exact wellFormed_and_encode_of_decodeCombo h (fun _ => ⟨rfl, rfl⟩) ⟨rfl, rfl⟩
  | 6, h => exact wellFormed_and_encode_of_decodeCombo h (fun _ => ⟨rfl, rfl⟩) ⟨rfl, rfl⟩
  | 7, h => exact wellFormed_and_encode_of_decodeCombo h (fun _ => ⟨rfl, rfl⟩) ⟨rfl, rfl⟩
  | k + 8, h => cases h

/-- Two elements of at most 7 always decode (R55, R56). -/
theorem decode_ne_error {opcode operand : Nat} (ho : opcode ≤ 7) (hp : operand ≤ 7) (e : DecodeError) :
    decode opcode operand ≠ .error e := by
  have hw (i : Instr) : withOperand operand i ≠ .error e := by simp [withOperand, Config.fieldMax, hp]
  interval_cases opcode <;> exact hw _

/-- An illegal word is a combo opcode with the operand 7 (R57). -/
theorem encode_of_isIllegal {i : Instr} (h : i.isIllegal = true) :
    (encode i).1 ∈ Config.comboOpcodes ∧ (encode i).2 = 7 := by
  match i, h with
  | .illegalShra, _ => decide
  | .illegalMod8, _ => decide
  | .illegalEmit, _ => decide
  | .illegalShrb, _ => decide
  | .illegalShrc, _ => decide

end Sys2Proof

/-! PROOFS. What each instruction does, said by what R17's table says it writes. -/

namespace Sys2Proof.Machine

/-- Every instruction writes a register, emits, jumps, or is an illegal word (R17). -/
theorem instr_form_cases (i : Instr) :
    (∃ r, writesOf i = some r) ∨ (∃ c, i = .emit c) ∨ (∃ x, i = .jnz x) ∨ i.isIllegal = true := by
  cases i <;> simp [writesOf, Instr.isIllegal]

/-- An illegal word writes no register. -/
theorem writesOf_of_isIllegal {i : Instr} (h : i.isIllegal = true) : writesOf i = none := by
  match i, h with
  | .illegalShra, _ => rfl
  | .illegalMod8, _ => rfl
  | .illegalEmit, _ => rfl
  | .illegalShrb, _ => rfl
  | .illegalShrc, _ => rfl

/-- The value an instruction with a destination gives it (R79 to R84); 0 for the others. -/
def writtenValue : Instr → State → Word
  | .shra c, s => shiftRight s.a (combo c s)
  | .xorl n, s => xorWord s.b (literal n)
  | .mod8 c, s => and7 (combo c s)
  | .xorc _, s => xorWord s.b s.c
  | .shrb c, s => shiftRight s.a (combo c s)
  | .shrc c, s => shiftRight s.a (combo c s)
  | _, _ => 0

/-- An instruction with a destination writes it and moves on to the next pair. -/
theorem exec_of_writesOf {i : Instr} {r : Reg} (h : writesOf i = some r) (s : State) :
    exec i s = .next (s.setReg r (writtenValue i s)).advance := by
  cases i <;> cases h <;> rfl

theorem exec_emit (c : ComboSrc) (s : State) :
    exec (.emit c) s = .next (s.append (trunc3 (and7 (combo c s)))).advance := rfl

/-- A jump not taken moves on to the next pair (R85). -/
theorem exec_jnz_of_zero (x : Nat) {s : State} (ha : s.a = 0) : exec (.jnz x) s = .next s.advance := by
  have hn : aNonzero s = false := decide_eq_false (not_not_intro ha)
  simp [exec, execJnz, hn]

/-- A jump taken to an even target ends there (R85). -/
theorem exec_jnz_of_even {x : Nat} {s : State} (ha : s.a ≠ 0) (hx : x % 2 = 0) :
    exec (.jnz x) s = .next (s.retireAt x) := by
  have hn : aNonzero s = true := decide_eq_true ha
  simp [exec, execJnz, hn, hx]

/-- A jump taken to an odd target faults (R86). -/
theorem exec_jnz_of_odd {x : Nat} {s : State} (ha : s.a ≠ 0) (hx : x % 2 = 1) :
    exec (.jnz x) s = .next (s.raise (.misalignedJump s.pc x)) := by
  have hn : aNonzero s = true := decide_eq_true ha
  simp [exec, execJnz, hn, hx]

/-- What a jump can come to. -/
theorem exec_jnz_cases (x : Nat) (s : State) :
    (s.a = 0 ∧ exec (.jnz x) s = .next s.advance) ∨
    (s.a ≠ 0 ∧ x % 2 = 0 ∧ exec (.jnz x) s = .next (s.retireAt x)) ∨
    (s.a ≠ 0 ∧ x % 2 = 1 ∧ exec (.jnz x) s = .next (s.raise (.misalignedJump s.pc x))) := by
  by_cases ha : s.a = 0
  · exact .inl ⟨ha, exec_jnz_of_zero x ha⟩
  · rcases Nat.mod_two_eq_zero_or_one x with hx | hx
    · exact .inr (.inl ⟨ha, hx, exec_jnz_of_even ha hx⟩)
    · exact .inr (.inr ⟨ha, hx, exec_jnz_of_odd ha hx⟩)

/-- An illegal word takes its fault, whatever the state (R57). -/
theorem exec_of_isIllegal {i : Instr} (h : i.isIllegal = true) (s : State) :
    exec i s = .next (raiseComboReserved s) := by
  match i, h with
  | .illegalShra, _ => rfl
  | .illegalMod8, _ => rfl
  | .illegalEmit, _ => rfl
  | .illegalShrb, _ => rfl
  | .illegalShrc, _ => rfl

end Sys2Proof.Machine

/-! PROOFS. Every step keeps the invariant (O29): the pair a step of a well-formed program fetches is a legal
instruction, a legal instruction completes or takes a misaligned jump, and each way a step ends keeps the fields. -/

namespace Sys2Proof.Machine

/-- The value of an element the fetch reads. -/
theorem elemValue_of_readElem {s : State} {i : Nat} {e : Elem} (h : s.readElem i = some e) :
    elemValue s.program i = e.toNat := by
  rw [State.readElem_eq] at h
  simp [elemValue, List.getD_eq_getElem?_getD, h]

/-- The pair at an even index of a well-formed program meets the conditions of R49. -/
theorem ProgramWF.pair_bounds {s : State} (hw : ProgramWF s.program) {i : Nat} {o p : Elem} (he : i % 2 = 0)
    (ho : s.readElem i = some o) (hp : s.readElem (i + 1) = some p) :
    o.toNat ≤ 7 ∧ p.toNat ≤ 7 ∧ (o.toNat ∈ Config.comboOpcodes → p.toNat ≤ 6) := by
  have hi : i < s.program.length := (List.getElem?_eq_some_iff.1 (State.readElem_eq s i ▸ ho)).1
  rw [← elemValue_of_readElem ho, ← elemValue_of_readElem hp]
  exact ⟨hw.opcodes i he hi, hw.operands i he hi, hw.combos i he hi⟩

/-- What a pair of a well-formed program decodes to is well-formed and no illegal word. -/
theorem ProgramWF.decoded_legal {s : State} (hw : ProgramWF s.program) {i : Nat} {o p : Elem} {instr : Instr}
    (he : i % 2 = 0) (ho : s.readElem i = some o) (hp : s.readElem (i + 1) = some p)
    (hd : decode o.toNat p.toNat = .ok instr) : instr.WellFormed = true ∧ instr.isIllegal = false := by
  obtain ⟨hwf, henc⟩ := wellFormed_and_encode_of_decode hd
  obtain ⟨-, -, hcombo⟩ := hw.pair_bounds he ho hp
  refine ⟨hwf, Bool.eq_false_iff.2 fun hill => ?_⟩
  obtain ⟨hop, h7⟩ := encode_of_isIllegal hill
  rw [henc] at hop h7
  have := hcombo hop
  omega

/-- An executed instruction that takes no fault: one step counted, at most one value emitted, and the pc at the
next pair or at a jump target of R85. -/
structure Retired (s t : State) : Prop where
  status : t.status = s.status
  steps : t.steps = s.steps + 1
  outLength : t.out.length ≤ s.out.length + 1
  pc : t.pc = s.pc + 2 ∨ (t.pc % 2 = 0 ∧ t.pc ≤ 7)

/-- A legal instruction retires, or jumps to an odd target of at most 7 with A nonzero. -/
theorem exec_legal_cases {i : Instr} {s t : State} (hw : i.WellFormed = true) (hl : i.isIllegal = false)
    (h : exec i s = .next t) :
    Retired s t ∨ ∃ x, s.a ≠ 0 ∧ x % 2 = 1 ∧ x ≤ 7 ∧ t = s.raise (.misalignedJump s.pc x) := by
  rcases instr_form_cases i with ⟨r, hr⟩ | ⟨c, rfl⟩ | ⟨x, rfl⟩ | hill
  · cases (exec_of_writesOf hr s).symm.trans h
    exact .inl ⟨by simp, by simp, by simp, by simp⟩
  · cases h
    exact .inl ⟨by simp, by simp, by simp, by simp⟩
  · have hx : x ≤ 7 := of_decide_eq_true hw
    rcases exec_jnz_cases x s with ⟨-, he⟩ | ⟨-, h2, he⟩ | ⟨ha, h2, he⟩ <;> cases he.symm.trans h
    · exact .inl ⟨by simp, by simp, by simp, by simp⟩
    · exact .inl ⟨by simp, by simp, by simp, .inr ⟨h2, hx⟩⟩
    · exact .inr ⟨x, ha, h2, hx, rfl⟩
  · simp [hl] at hill

/-- The invariant of a run in progress outlives its end: only what the new status records is left to show. -/
theorem Invariant.stop {s : State} (h : Invariant s) (hs : s.status = .running) {status : Status}
    (hidle : status ≠ .idle) (hrun : status ≠ .running)
    (hmal : ∀ sub i, status ≠ .faulted (.malformedProgram sub i))
    (hjump : ∀ p x, status = .faulted (.misalignedJump p x) → p = s.pc ∧ x % 2 = 1 ∧ x ≤ 7 ∧ s.a ≠ 0)
    (hceil : status = .faulted .stepCeiling → s.ceiling = some s.steps) : Invariant (s.withStatus status) where
  memory := h.memory
  inside := h.inside
  pcEven := h.pcEven
  outBound := h.outBound
  idleFields e := absurd e hidle
  startedLoaded _ := h.startedLoaded (by simp [hs])
  runningWF e := absurd e hrun
  runningPc e := absurd e hrun
  runningCeiling e := absurd e hrun
  malformedFields sub i e := absurd e (hmal sub i)
  misalignedFields := hjump
  ceilingFields := hceil

/-- The invariant of a run in progress outlives an instruction that retires: the pair lies inside a program of
even length, and the ceiling was not reached before it. -/
theorem Invariant.retire {s t : State} (h : Invariant s) (hst : step s = .next t) (hpc : s.pc < s.len)
    (hc : s.ceiling ≠ some s.steps) (hr : Retired s t) : Invariant t := by
  obtain ⟨hstatus, hsteps, hout, hpc'⟩ := hr
  obtain ⟨hs, -⟩ := step_next hst
  obtain ⟨hpm, hlen, hloaded, hceil⟩ := step_keeps hst
  have hrun : t.status = .running := hstatus.trans hs
  have hwf := h.runningWF hs
  have hlenEven : s.len % 2 = 0 := by simpa using hwf.evenLength
  have hpcEven := h.pcEven
  have hbound := h.outBound
  exact {
    memory := hpm ▸ h.memory
    inside := by simpa only [hpm, hlen] using h.inside
    pcEven := by omega
    outBound := by omega
    idleFields := by simp [hrun]
    startedLoaded := fun _ => hloaded.trans (h.startedLoaded (by simp [hs]))
    runningWF := fun _ => (State.program_congr hpm hlen).symm ▸ hwf
    runningPc := fun _ => by omega
    runningCeiling := by
      intro _ n hn
      rw [hceil] at hn
      have hle := h.runningCeiling hs n hn
      have hne : s.steps ≠ n := fun e => hc (e ▸ hn)
      omega
    malformedFields := by simp [hrun]
    misalignedFields := by simp [hrun]
    ceilingFields := by simp [hrun] }

/-- Settles O29, by the turns of a step: the undecoded pair cannot occur in a well-formed program. -/
theorem stepKeepsInv : Obligations.StepKeepsInv := by
  intro s t h hst
  obtain ⟨hs, hturn⟩ := step_next hst
  cases hturn with
  | halted hl => exact h.stop hs (by simp) (by simp) (by simp) (by simp) (by simp)
  | ceiling hl hc => exact h.stop hs (by simp) (by simp) (by simp) (by simp) (fun _ => hc)
  | undecoded hl hc he ho hp hd =>
    obtain ⟨ho7, hp7, -⟩ := (h.runningWF hs).pair_bounds he ho hp
    exact absurd hd (decode_ne_error ho7 hp7 _)
  | executed hl hc he ho hp hd ht =>
    obtain ⟨hwf, hlegal⟩ := (h.runningWF hs).decoded_legal he ho hp hd
    rcases exec_legal_cases hwf hlegal ht with hr | ⟨x, ha, hodd, hx, rfl⟩
    · exact h.retire hst hl hc hr
    · refine h.stop hs (by simp) (by simp) (by simp) ?_ (by simp)
      rintro p x' ⟨⟩
      exact ⟨rfl, hodd, hx, ha⟩

end Sys2Proof.Machine

/-! PROOFS. The frame of the instructions (O19), and that a register they do not read has no influence (O21). -/

namespace Sys2Proof.Machine

/-- Settles O19, by the four forms of an instruction. -/
theorem instructionFrame : Obligations.InstructionFrame := by
  intro i s t h
  obtain ⟨hpm, hlen, hloaded, hceil⟩ := (effect_of_exec h).keeps
  suffices hown : (∀ r, writesOf i ≠ some r → t.reg r = s.reg r) ∧
      ((∀ src, i ≠ .emit src) → t.out = s.out) ∧
      ((∀ x, i ≠ .jnz x) → i.isIllegal = false → t.pc = s.pc + 2) ∧
      ((∀ x, i = .jnz x → s.a = 0 ∨ x % 2 = 0) → i.isIllegal = false → t.status = s.status) by
    obtain ⟨hreg, hout, hpc, hstatus⟩ := hown
    exact ⟨hreg, hout, hpc, hstatus, State.readElem_congr hpm hlen, hpm, hlen, hloaded, hceil⟩
  rcases instr_form_cases i with ⟨q, hq⟩ | ⟨c, rfl⟩ | ⟨x, rfl⟩ | hill
  · cases (exec_of_writesOf hq s).symm.trans h
    refine ⟨fun r hr => ?_, by simp, by simp, by simp⟩
    have hne : r ≠ q := fun e => hr (e ▸ hq)
    rw [State.reg_advance, State.reg_setReg_other s _ hne]
  · cases h
    exact ⟨by simp, fun hn => absurd rfl (hn c), by simp, by simp⟩
  · rcases exec_jnz_cases x s with ⟨-, he⟩ | ⟨-, -, he⟩ | ⟨ha, hx, he⟩ <;> cases he.symm.trans h
    · exact ⟨by simp, by simp, by simp, by simp⟩
    · exact ⟨by simp, by simp, fun hn => absurd rfl (hn x), by simp⟩
    · refine ⟨by simp, by simp, fun hn => absurd rfl (hn x), fun hn => ?_⟩
      rcases hn x rfl with h0 | h0
      · exact absurd h0 ha
      · omega
  · cases (exec_of_isIllegal hill s).symm.trans h
    exact ⟨by simp [raiseComboReserved], by simp [raiseComboReserved], by simp [hill], by simp [hill]⟩

/-- The later of two writes of one register stands. -/
theorem State.setReg_setReg_same (s : State) (r : Reg) (v w : Word) :
    (s.setReg r v).setReg r w = s.setReg r w := by cases r <;> rfl

/-- Writes of different registers commute. -/
theorem State.setReg_comm (s : State) {r q : Reg} (v w : Word) (h : r ≠ q) :
    (s.setReg r v).setReg q w = (s.setReg q w).setReg r v := by
  revert h
  cases r <;> cases q <;> simp [State.setReg]

theorem State.advance_setReg (s : State) (r : Reg) (v : Word) :
    (s.setReg r v).advance = s.advance.setReg r v := by cases r <;> rfl

theorem State.retireAt_setReg (s : State) (t : Nat) (r : Reg) (v : Word) :
    (s.setReg r v).retireAt t = (s.retireAt t).setReg r v := by cases r <;> rfl

theorem State.raise_setReg (s : State) (cause : Cause) (r : Reg) (v : Word) :
    (s.setReg r v).raise cause = (s.raise cause).setReg r v := by cases r <;> rfl

theorem State.append_setReg (s : State) (o : OutVal) (r : Reg) (v : Word) :
    (s.setReg r v).append o = (s.append o).setReg r v := by cases r <;> rfl

/-- A combo operand has the value it had before a write of a register it does not read. -/
theorem combo_setReg_of_notMem {c : ComboSrc} {r : Reg} (v : Word) (s : State) (h : r ∉ comboReads c) :
    combo c (s.setReg r v) = combo c s :=
  combo_setReg_other v s (by rintro rfl; simp [comboReads] at h)

/-- A write of a register an instruction does not read leaves the value the instruction writes. -/
theorem writtenValue_setReg {i : Instr} {r : Reg} (v : Word) (s : State) (h : r ∉ readsOf i) :
    writtenValue i (s.setReg r v) = writtenValue i s := by
  have ha (hr : r ≠ .A) : (s.setReg r v).a = s.a := State.reg_setReg_other s v hr.symm
  have hb (hr : r ≠ .B) : (s.setReg r v).b = s.b := State.reg_setReg_other s v hr.symm
  have hc (hr : r ≠ .C) : (s.setReg r v).c = s.c := State.reg_setReg_other s v hr.symm
  cases i <;> simp_all [readsOf, writtenValue, combo_setReg_of_notMem]

/-- Settles O21, by the four forms of an instruction: what it computes from is in its reads, and what it does
with it commutes with a write of another register. -/
theorem unreadRegisterHasNoInfluence : Obligations.UnreadRegisterHasNoInfluence := by
  intro i s r v hread
  rcases instr_form_cases i with ⟨q, hq⟩ | ⟨c, rfl⟩ | ⟨x, rfl⟩ | hill
  · rw [exec_of_writesOf hq, exec_of_writesOf hq, writtenValue_setReg v s hread]
    refine ⟨fun hw => ?_, fun hw => ?_⟩
    · obtain rfl : q = r := Option.some.inj (hq.symm.trans hw)
      rw [State.setReg_setReg_same]
    · have hne : r ≠ q := fun e => hw (e ▸ hq)
      rw [State.setReg_comm s v _ hne, State.advance_setReg, mapNext]
  · refine ⟨nofun, fun _ => ?_⟩
    rw [exec_emit, exec_emit, combo_setReg_of_notMem v s hread, State.append_setReg, State.advance_setReg, mapNext]
  · refine ⟨nofun, fun _ => ?_⟩
    have hne : Reg.A ≠ r := fun e => hread (e ▸ List.mem_singleton_self Reg.A)
    have ha : (s.setReg r v).a = s.a := State.reg_setReg_other s v hne
    rcases exec_jnz_cases x s with ⟨h0, he⟩ | ⟨h0, hx, he⟩ | ⟨h0, hx, he⟩ <;> rw [he, mapNext] <;> rw [← ha] at h0
    · rw [exec_jnz_of_zero x h0, State.advance_setReg]
    · rw [exec_jnz_of_even h0 hx, State.retireAt_setReg]
    · rw [exec_jnz_of_odd h0 hx, State.setReg_pc, State.raise_setReg]
  · rw [exec_of_isIllegal hill, exec_of_isIllegal hill]
    refine ⟨fun hw => ?_, fun _ => ?_⟩
    · simp [writesOf_of_isIllegal hill] at hw
    · rw [raiseComboReserved, State.setReg_pc, State.raise_setReg, mapNext, raiseComboReserved]

end Sys2Proof.Machine

/-! PROOFS. The output of a run only grows at its end (O37), and a load and a start leave nothing of an earlier
run (O39). -/

namespace Sys2Proof.Machine

/-- An effect appends at most one value to the output (R21). -/
theorem Effect.out_cases {s t : State} (h : Effect s t) : t.out = s.out ∨ ∃ v, t.out = s.out ++ [v] := by
  cases h <;> simp

/-- A step appends at most one value to the output (R21). -/
theorem step_out_cases {s t : State} (h : step s = .next t) : t.out = s.out ∨ ∃ v, t.out = s.out ++ [v] := by
  cases (step_next h).2 with
  | executed hl hc he ho hp hd ht => exact (effect_of_exec ht).out_cases
  | halted hl => exact .inl rfl
  | ceiling hl hc => exact .inl rfl
  | undecoded hl hc he ho hp hd => exact .inl rfl

theorem step_out_grows {s t : State} (h : step s = .next t) :
    s.out <+: t.out ∧ t.out.length ≤ s.out.length + 1 := by
  rcases step_out_cases h with he | ⟨v, he⟩ <;> simp [he]

/-- A run stands still where the step answers no next state. -/
theorem runSteps_of_no_next {s : State} (h : ∀ t, step s ≠ .next t) (k : Nat) : runSteps k s = s := by
  cases k with
  | zero => rfl
  | succ k =>
    rw [runSteps]
    cases hs : step s with
    | next t => exact absurd hs (h t)
    | fault r => rfl
    | refused r => rfl

/-- Settles O37, by induction on the number of steps. -/
theorem outputOnlyGrows : Obligations.OutputOnlyGrows := by
  intro s k
  induction k generalizing s with
  | zero => exact ⟨List.prefix_rfl, Nat.le_refl _⟩
  | succ k ih =>
    by_cases hs : ∃ t, step s = .next t
    · obtain ⟨t, ht⟩ := hs
      obtain ⟨hpre, hlen⟩ := step_out_grows ht
      obtain ⟨hpre', hlen'⟩ := ih t
      rw [runSteps_of_next ht]
      exact ⟨hpre.trans hpre', by omega⟩
    · rw [runSteps_of_no_next (not_exists.1 hs)]
      exact ⟨List.prefix_rfl, Nat.le_add_right _ _⟩

/-- The state a load and a start leave depends on the program, the registers and the ceiling alone (R27, R111). -/
theorem startRun_loadProgram_congr {s s' : State} (h : s.ceiling = s'.ceiling) (p : List Elem) (a b c : Word) :
    (s.loadProgram p).startRun a b c = (s'.loadProgram p).startRun a b c := by
  have hprog : (s.loadProgram p).program = (s'.loadProgram p).program := State.program_congr rfl rfl
  simp only [State.startRun, hprog]
  simp only [State.loadProgram, h]

/-- Settles O39: both starts, and the start inside `run`, are one state. -/
theorem startForgetsEarlierRuns : Obligations.StartForgetsEarlierRuns := by
  intro p a b c s s' t t' u u' hceil ht ht' hu hu'
  obtain ⟨-, rfl⟩ := hostLoad_next ht
  obtain ⟨-, rfl⟩ := hostLoad_next ht'
  obtain ⟨-, -, rfl⟩ := hostStart_next hu
  obtain ⟨-, -, rfl⟩ := hostStart_next hu'
  refine ⟨startRun_loadProgram_congr hceil p a b c, fun n k hn => ?_⟩
  rw [run, startRun_loadProgram_congr (s' := State.resetWith n) hn p a b c]

end Sys2Proof.Machine

/-! PROOFS. The canonical form of program memory is unique (O46). -/

namespace Sys2Proof.Machine

@[simp] theorem Memory.read_cons_same (k : Nat) (v : Elem) (rest : Memory) :
    Memory.read ((k, v) :: rest) k = v := if_pos rfl

theorem Memory.read_cons_other {k i : Nat} (v : Elem) (rest : Memory) (h : i ≠ k) :
    Memory.read ((k, v) :: rest) i = Memory.read rest i := if_neg h

/-- A canonical memory that reads an index as something else than unlisted begins there at the latest. -/
theorem Memory.le_of_read_ne {m : Memory} {lo i : Nat} (hm : Memory.wfFrom lo m = true)
    (h : m.read i ≠ Memory.unlisted) : lo ≤ i :=
  Nat.le_of_not_lt fun hlt => h (Memory.read_below hm hlt)

/-- Two canonical memories that read alike are the same list. -/
theorem Memory.eq_of_read_eq {m m' : Memory} {lo lo' : Nat} (hm : Memory.wfFrom lo m = true)
    (hm' : Memory.wfFrom lo' m' = true) (h : ∀ i, m.read i = m'.read i) : m = m' := by
  induction m generalizing m' lo lo' with
  | nil =>
    cases m' with
    | nil => rfl
    | cons cell' rest' =>
      obtain ⟨k', v'⟩ := cell'
      obtain ⟨-, hv', -⟩ := Memory.wfFrom_cons.1 hm'
      have hk := h k'
      rw [Memory.read_cons_same] at hk
      exact absurd hk.symm hv'
  | cons cell rest ih =>
    obtain ⟨k, v⟩ := cell
    obtain ⟨-, hv, hrest⟩ := Memory.wfFrom_cons.1 hm
    have hk := h k
    rw [Memory.read_cons_same] at hk
    cases m' with
    | nil => exact absurd hk hv
    | cons cell' rest' =>
      obtain ⟨k', v'⟩ := cell'
      obtain ⟨-, hv', hrest'⟩ := Memory.wfFrom_cons.1 hm'
      have hk' := h k'
      rw [Memory.read_cons_same] at hk'
      have hle : k ≤ k' := Memory.le_of_read_ne (Memory.wfFrom_cons.2 ⟨Nat.le_refl k, hv, hrest⟩) (hk' ▸ hv')
      have hle' : k' ≤ k := Memory.le_of_read_ne (Memory.wfFrom_cons.2 ⟨Nat.le_refl k', hv', hrest'⟩) (hk ▸ hv)
      obtain rfl : k = k' := Nat.le_antisymm hle hle'
      rw [Memory.read_cons_same] at hk
      subst hk
      rw [ih hrest hrest' fun i => ?_]
      by_cases hi : i = k
      · rw [hi, Memory.read_below hrest (Nat.lt_succ_self k), Memory.read_below hrest' (Nat.lt_succ_self k)]
      · simpa only [Memory.read_cons_other _ _ hi] using h i

/-- Settles O46. -/
theorem canonicalMemoryIsUnique : Obligations.CanonicalMemoryIsUnique :=
  fun _ _ hm hm' h => Memory.eq_of_read_eq hm hm' h

end Sys2Proof.Machine

/-! PROOFS. The program of a run is the one the host loaded (O38). -/

namespace Sys2Proof.Machine

/-- What every step keeps, a run of any number of steps keeps. -/
theorem runSteps_preserves {P : State → Prop} (hstep : ∀ {s t}, P s → step s = .next t → P t) {s : State}
    (hs : P s) (k : Nat) : P (runSteps k s) := by
  induction k generalizing s with
  | zero => exact hs
  | succ k ih =>
    by_cases hn : ∃ t, step s = .next t
    · obtain ⟨t, ht⟩ := hn
      rw [runSteps_of_next ht]
      exact ih (hstep hs ht)
    · rwa [runSteps_of_no_next (not_exists.1 hn)]

/-- No step changes the program: an instruction does not store to it (R44). -/
theorem step_program {s t : State} (h : step s = .next t) : t.program = s.program := by
  obtain ⟨hpm, hlen, -, -⟩ := step_keeps h
  exact State.program_congr hpm hlen

/-- The program of a run is the program it started with (R44). -/
theorem runSteps_program (s : State) (k : Nat) : (runSteps k s).program = s.program :=
  runSteps_preserves (P := fun t => t.program = s.program) (fun hs h => (step_program h).trans hs) rfl k

/-- After a load of a program, the program is that one (R112). -/
@[simp] theorem State.program_loadProgram (s : State) (p : List Elem) : (s.loadProgram p).program = p := by
  refine List.ext_getElem (by simp) fun i _ hi => ?_
  simp [State.program, Memory.read_ofElems, hi]

/-- A start leaves the program alone (R110). -/
@[simp] theorem State.program_startRun (s : State) (a b c : Word) : (s.startRun a b c).program = s.program :=
  State.program_congr rfl rfl

/-- While a run is in progress the host cannot load a program (R113). -/
theorem hostLoad_of_running {s : State} (h : s.status = .running) (q : List Elem) :
    hostLoad q s = .refused .hostWhileRunning := if_pos h

/-- Settles O38: a load places the program, and neither the start nor a step changes it. -/
theorem fetchReadsLoadedProgram : Obligations.FetchReadsLoadedProgram := by
  intro p a b c s t u ht hu k
  obtain ⟨-, rfl⟩ := hostLoad_next ht
  obtain ⟨-, -, rfl⟩ := hostStart_next hu
  have hprog : (runSteps k ((s.loadProgram p).startRun a b c)).program = p := by simp [runSteps_program]
  exact ⟨fun i => by rw [State.readElem_eq, hprog], hprog, hostLoad_of_running⟩

end Sys2Proof.Machine

/-! PROOFS. The decoder and the encoder are inverse on well-formed instructions (O1, O2), and every pair the decoder
rejects or reads as an illegal word (O3). -/

namespace Sys2Proof

theorem withOperand_of_le {operand : Nat} (h : operand ≤ 7) (i : Instr) : withOperand operand i = .ok i := if_pos h

theorem withOperand_of_gt {operand : Nat} (h : 7 < operand) (i : Instr) :
    withOperand operand i = .error .operandRange := if_neg (Nat.not_le.2 h)

/-- Under a combo opcode, the field of a well-formed operand is read back as that operand. -/
theorem withOperand_decodeCombo_encodeCombo {c : ComboSrc} (h : c.WellFormed = true) (mk : ComboSrc → Instr)
    (illegal : Instr) :
    withOperand (encodeCombo c) (decodeCombo mk illegal (encodeCombo c)) = .ok (mk c) := by
  have hle : encodeCombo c ≤ 7 := Nat.le_succ_of_le (Laws.FieldRange.combo_le h)
  rw [withOperand_of_le hle, decodeCombo, comboSrc_encodeCombo h]

/-- The pair of a well-formed instruction decodes to it (R53, R54). -/
theorem decode_encode {i : Instr} (h : i.WellFormed = true) : decode (encode i).1 (encode i).2 = .ok i := by
  cases i with
  | shra c => exact withOperand_decodeCombo_encodeCombo h _ _
  | xorl n => exact withOperand_of_le (of_decide_eq_true h) _
  | mod8 c => exact withOperand_decodeCombo_encodeCombo h _ _
  | jnz t => exact withOperand_of_le (of_decide_eq_true h) _
  | xorc n => exact withOperand_of_le (of_decide_eq_true h) _
  | emit c => exact withOperand_decodeCombo_encodeCombo h _ _
  | shrb c => exact withOperand_decodeCombo_encodeCombo h _ _
  | shrc c => exact withOperand_decodeCombo_encodeCombo h _ _
  | illegalShra => rfl
  | illegalMod8 => rfl
  | illegalEmit => rfl
  | illegalShrb => rfl
  | illegalShrc => rfl

/-- Settles O1. -/
theorem decodeEncodeRoundTrip : Obligations.DecodeEncodeRoundTrip := fun _ => decode_encode

/-- Settles O2. -/
theorem encodeOfDecoded : Obligations.EncodeOfDecoded := fun _ _ _ => wellFormed_and_encode_of_decode

theorem le_of_mem_comboOpcodes : ∀ {opcode : Nat}, opcode ∈ Config.comboOpcodes → opcode ≤ 7 := by decide

/-- An opcode above 7 is rejected whatever the operand (R55). -/
theorem decode_of_opcode_gt {opcode : Nat} (h : 7 < opcode) (operand : Nat) :
    decode opcode operand = .error .opcodeRange := by
  obtain ⟨k, rfl⟩ := Nat.exists_eq_add_of_le' h
  rfl

/-- An operand above 7 is rejected under every legal opcode (R56). -/
theorem decode_of_operand_gt {opcode operand : Nat} (ho : opcode ≤ 7) (hp : 7 < operand) :
    decode opcode operand = .error .operandRange := by
  interval_cases opcode <;> exact withOperand_of_gt hp _

/-- A combo opcode with the operand 7 is read as an illegal word (R57). -/
theorem decode_combo_seven {opcode : Nat} (h : opcode ∈ Config.comboOpcodes) :
    ∃ i, decode opcode 7 = .ok i ∧ i.isIllegal = true := by
  have hcases : opcode = 0 ∨ opcode = 2 ∨ opcode = 5 ∨ opcode = 6 ∨ opcode = 7 := by
    simpa [Config.comboOpcodes] using h
  rcases hcases with rfl | rfl | rfl | rfl | rfl <;> exact ⟨_, rfl, rfl⟩

/-- Which decoded instructions are illegal words (R57). -/
theorem isIllegal_iff_of_decode {opcode operand : Nat} {i : Instr} (h : decode opcode operand = .ok i) :
    i.isIllegal = true ↔ opcode ∈ Config.comboOpcodes ∧ operand = 7 := by
  constructor
  · intro hill
    simpa only [(wellFormed_and_encode_of_decode h).2] using encode_of_isIllegal hill
  · rintro ⟨hop, rfl⟩
    obtain ⟨j, hj, hill⟩ := decode_combo_seven hop
    cases h.symm.trans hj
    exact hill

/-- What the decoder can answer: the range of the opcode comes first, then the range of the operand. -/
theorem decode_cases (opcode operand : Nat) :
    (7 < opcode ∧ decode opcode operand = .error .opcodeRange) ∨
    (opcode ≤ 7 ∧ 7 < operand ∧ decode opcode operand = .error .operandRange) ∨
    (opcode ≤ 7 ∧ operand ≤ 7 ∧ ∃ i, decode opcode operand = .ok i) := by
  rcases Nat.lt_or_ge 7 opcode with ho | ho
  · exact .inl ⟨ho, decode_of_opcode_gt ho operand⟩
  · rcases Nat.lt_or_ge 7 operand with hp | hp
    · exact .inr (.inl ⟨ho, hp, decode_of_operand_gt ho hp⟩)
    · cases hd : decode opcode operand with
      | error e => exact absurd hd (decode_ne_error ho hp e)
      | ok i => exact .inr (.inr ⟨ho, hp, i, rfl⟩)

/-- Settles O3, by the three answers of the decoder. -/
theorem decodeRejectsExactly : Obligations.DecodeRejectsExactly := by
  intro opcode operand
  rcases decode_cases opcode operand with ⟨ho, hd⟩ | ⟨ho, hp, hd⟩ | ⟨ho, hp, i, hd⟩
  · have hcombo : opcode ∉ Config.comboOpcodes := fun h => Nat.not_le.2 ho (le_of_mem_comboOpcodes h)
    simp [hd, ho, hcombo]
  · have h7 : operand ≠ 7 := hp.ne'
    simp [hd, ho, hp, h7]
  · simp [hd, ho, hp, ← isIllegal_iff_of_decode hd]

end Sys2Proof

/-! PROOFS. The 6-bit instruction word (O4, O5), and the illegal words (O18). -/

namespace Sys2Proof

/-- Both elements of a well-formed instruction's encoding are legal fields (R47). -/
theorem encode_le {i : Instr} (h : i.WellFormed = true) : (encode i).1 ≤ 7 ∧ (encode i).2 ≤ 7 := by
  cases i with
  | shra c => exact Laws.FieldRange.shra c h
  | xorl n => exact Laws.FieldRange.xorl n h
  | mod8 c => exact Laws.FieldRange.mod8 c h
  | jnz t => exact Laws.FieldRange.jnz t h
  | xorc n => exact Laws.FieldRange.xorc n h
  | emit c => exact Laws.FieldRange.emit c h
  | shrb c => exact Laws.FieldRange.shrb c h
  | shrc c => exact Laws.FieldRange.shrc c h
  | illegalShra => exact Laws.FieldRange.illegalShra h
  | illegalMod8 => exact Laws.FieldRange.illegalMod8 h
  | illegalEmit => exact Laws.FieldRange.illegalEmit h
  | illegalShrb => exact Laws.FieldRange.illegalShrb h
  | illegalShrc => exact Laws.FieldRange.illegalShrc h

/-- The fields of the instruction word of a well-formed instruction (R48). -/
theorem instrWord_fields {i : Instr} (h : i.WellFormed = true) :
    instrWord i < 64 ∧ instrWord i / 8 = (encode i).1 ∧ instrWord i % 8 = (encode i).2 := by
  obtain ⟨ho, hp⟩ := encode_le h
  rw [instrWord]
  omega

/-- A word of six bits stands for its two fields, neither of them cut (R48). -/
theorem tableElements_toNat {w : Nat} (h : w < 64) :
    (tableElements w).1.toNat = w / 8 ∧ (tableElements w).2.toNat = w % 8 := by
  simp only [tableElements, BitVec.toNat_ofNat]
  omega

/-- A word of six bits is read as the pair of its fields is. -/
theorem decodeTableWord_of_decode {w : Nat} {i : Instr} (hw : w < 64) (h : decode (w / 8) (w % 8) = .ok i)
    (nbits : Nat) : decodeTableWord nbits w = some i := by
  obtain ⟨ho, hp⟩ := tableElements_toNat hw
  rw [decodeTableWord, ho, hp, h]

/-- Settles O5: the fields of the word are the encoding, which decodes back. -/
theorem instructionWordDecodes : Obligations.InstructionWordDecodes := by
  intro i h
  obtain ⟨hlt, hop, hoperand⟩ := instrWord_fields h
  refine ⟨hlt, hop, hoperand, decodeTableWord_of_decode hlt ?_⟩
  rw [hop, hoperand, decode_encode h]

/-- Settles O4: the words are closed terms, and the decoder evaluates each. -/
theorem sampleWordsDecode : Obligations.SampleWordsDecode :=
  ⟨rfl, rfl, rfl, rfl, rfl, rfl, rfl, rfl, rfl, rfl⟩

theorem wellFormed_of_isIllegal {i : Instr} (h : i.isIllegal = true) : i.WellFormed = true := by
  match i, h with
  | .illegalShra, _ => rfl
  | .illegalMod8, _ => rfl
  | .illegalEmit, _ => rfl
  | .illegalShrb, _ => rfl
  | .illegalShrc, _ => rfl

/-- Settles O18: an illegal word encodes to a combo opcode with 7, from which it is decoded, and its execution
raises. -/
theorem illegalWordsRaise : Obligations.IllegalWordsRaise := by
  intro i hi s
  have hill : i.isIllegal = true := by
    revert i
    decide
  obtain ⟨hop, h7⟩ := encode_of_isIllegal hill
  have hd := decode_encode (wellFormed_of_isIllegal hill)
  rw [h7] at hd
  exact ⟨⟨_, hop, hd⟩, Machine.exec_of_isIllegal hill s⟩

end Sys2Proof

/-! PROOFS. The value of a combo operand (O7). -/

namespace Sys2Proof.Machine

/-- A field value of 0 to 3 is a literal (R52). -/
theorem comboSrc_of_le_three {k : Nat} (h : k ≤ 3) : comboSrc k = some (.lit k) := by
  interval_cases k <;> rfl

/-- A field value of 7 or more denotes no combo operand (R52). -/
theorem comboSrc_of_ge_seven {k : Nat} (h : 7 ≤ k) : comboSrc k = none := by
  rcases comboSrc_cases k with ⟨_, -, -, -, hle⟩ | ⟨hnone, -⟩
  · omega
  · exact hnone

theorem pairViolation_of_error {opcode operand : Nat} {e : DecodeError} (h : decode opcode operand = .error e)
    (i : Nat) : pairViolation opcode operand i = some (decodeViolation e i) := by
  rw [pairViolation, h]

/-- A pair read as an illegal word violates the start check at its operand (R57, R65). -/
theorem pairViolation_of_isIllegal {opcode operand : Nat} {instr : Instr} (h : decode opcode operand = .ok instr)
    (hill : instr.isIllegal = true) (i : Nat) :
    pairViolation opcode operand i = some (.comboReserved, i + 1) := by
  rw [pairViolation, h]
  exact if_pos hill

/-- Settles O7, by the ranges of the field value. -/
theorem comboOperandValue : Obligations.ComboOperandValue := by
  intro s k
  refine ⟨fun hk => ⟨.lit k, comboSrc_of_le_three hk, zext64_toNat (by omega)⟩, ?_, ?_, ?_, ?_, ?_⟩
  · rintro rfl
    exact ⟨.reg .A, rfl, combo_reg .A s⟩
  · rintro rfl
    exact ⟨.reg .B, rfl, combo_reg .B s⟩
  · rintro rfl
    exact ⟨.reg .C, rfl, combo_reg .C s⟩
  · rintro rfl
    refine ⟨comboSrc_of_ge_seven le_rfl, fun opcode hop i => ?_⟩
    obtain ⟨instr, hd, hill⟩ := decode_combo_seven hop
    exact pairViolation_of_isIllegal hd hill i
  · intro hk
    refine ⟨comboSrc_of_ge_seven (by omega), fun opcode hop i => ?_⟩
    exact pairViolation_of_error (decode_of_operand_gt (le_of_mem_comboOpcodes hop) hk) i

end Sys2Proof.Machine

/-! PROOFS. The assembler reads back the line of a legal instruction (O6). -/

namespace Sys2Proof.Machine

/-- A combo operand as written is read back (R61). -/
theorem readCombo_asmCombo {c : ComboSrc} (h : c.WellFormed = true) : readCombo (asmCombo c) = some c := by
  cases c with
  | lit n =>
    have hn := combo_lit_le h
    interval_cases n <;> decide
  | reg r => cases r <;> decide

/-- A literal as written is read back (R61). -/
theorem readLiteral_asmLiteral {n : Nat} (h : n ≤ 7) : readLiteral (asmLiteral n) = some n := by
  interval_cases n <;> decide

/-- The line of a legal instruction assembles to it (R61). -/
theorem assemble_asmLine {i : Instr} (hw : i.WellFormed = true) (hl : i.isIllegal = false) :
    ∃ m t, asmLine i = some (m, t) ∧ assemble m t = some i := by
  have hcombo {c : ComboSrc} (h : c.WellFormed = true) (mk : ComboSrc → Instr) :
      (readCombo (asmCombo c)).map mk = some (mk c) := by rw [readCombo_asmCombo h, Option.map_some]
  have hliteral {n : Nat} (h : n ≤ 7) (mk : Nat → Instr) :
      (readLiteral (asmLiteral n)).map mk = some (mk n) := by rw [readLiteral_asmLiteral h, Option.map_some]
  match i, hw, hl with
  | .shra c, hw, _ => exact ⟨_, _, rfl, hcombo hw .shra⟩
  | .xorl n, hw, _ => exact ⟨_, _, rfl, hliteral (of_decide_eq_true hw) .xorl⟩
  | .mod8 c, hw, _ => exact ⟨_, _, rfl, hcombo hw .mod8⟩
  | .jnz t, hw, _ => exact ⟨_, _, rfl, hliteral (of_decide_eq_true hw) .jnz⟩
  | .xorc n, hw, _ => exact ⟨_, _, rfl, hliteral (of_decide_eq_true hw) .xorc⟩
  | .emit c, hw, _ => exact ⟨_, _, rfl, hcombo hw .emit⟩
  | .shrb c, hw, _ => exact ⟨_, _, rfl, hcombo hw .shrb⟩
  | .shrc c, hw, _ => exact ⟨_, _, rfl, hcombo hw .shrc⟩

/-- An illegal word has no line (R62). -/
theorem asmLine_of_isIllegal {i : Instr} (h : i.isIllegal = true) : asmLine i = none := by
  match i, h with
  | .illegalShra, _ => rfl
  | .illegalMod8, _ => rfl
  | .illegalEmit, _ => rfl
  | .illegalShrb, _ => rfl
  | .illegalShrc, _ => rfl

/-- No combo operand is written as a digit 4 to 7 (R61). -/
theorem readCombo_digit_above_three : ∀ d ∈ ["4", "5", "6", "7"], readCombo d = none := by decide

/-- The operand of every combo mnemonic is read as a combo operand (R61). -/
theorem assemble_comboMnemonic {m : String} (h : m ∈ ["SHRA", "SHRB", "SHRC", "MOD8", "EMIT"]) :
    ∃ mk : ComboSrc → Instr, ∀ t, assemble m (some t) = (readCombo t).map mk := by
  simp only [List.mem_cons, List.not_mem_nil, or_false] at h
  rcases h with rfl | rfl | rfl | rfl | rfl
  · exact ⟨.shra, fun _ => rfl⟩
  · exact ⟨.shrb, fun _ => rfl⟩
  · exact ⟨.shrc, fun _ => rfl⟩
  · exact ⟨.mod8, fun _ => rfl⟩
  · exact ⟨.emit, fun _ => rfl⟩

/-- Settles O6. -/
theorem assemblerRoundTrip : Obligations.AssemblerRoundTrip := by
  refine ⟨fun _ => assemble_asmLine, fun _ => asmLine_of_isIllegal, by decide, fun m hm d hd => ?_⟩
  obtain ⟨mk, hmk⟩ := assemble_comboMnemonic hm
  rw [hmk, readCombo_digit_above_three d hd, Option.map_none]

end Sys2Proof.Machine

/-! PROOFS. The logical right shift (O8), and the laws of XOR and of AND with 7 (O9), from what the ALU computes
as arithmetic. -/

namespace Sys2Proof.Machine

/-- A word shifted by 63 is its bit 63 (R75). -/
theorem shiftRight_sixtyThree (v : Word) : shiftRight v 63 = if v.getLsbD 63 then 1 else 0 := by
  have hlt : v.toNat / 2 ^ 63 < 2 := by omega
  have hbit : v.getLsbD 63 = decide (v.toNat / 2 ^ 63 = 1) := by
    rw [BitVec.getLsbD, Nat.testBit_eq_decide_div_mod_eq, Nat.mod_eq_of_lt hlt]
  have hval : (shiftRight v 63).toNat = v.toNat / 2 ^ 63 := shiftRight_toNat v 63
  apply BitVec.eq_of_toNat_eq
  rcases Nat.le_one_iff_eq_zero_or_eq_one.1 (Nat.le_of_lt_succ hlt) with h | h <;> rw [hval, hbit, h] <;> rfl

/-- Settles O8: the shift is a quotient by a power of two. -/
theorem logicalShiftLaw : Obligations.LogicalShiftLaw := by
  refine ⟨fun v n => ⟨fun _ => shiftRight_toNat v n, fun hn => if_neg (by omega), ?_, fun hv hn => ?_, ?_, ?_,
    shiftRight_sixtyThree v⟩, by decide⟩
  · rw [shiftRight_toNat]
    exact Nat.div_le_self _ _
  · have hv0 : 0 < v.toNat := Nat.pos_of_ne_zero fun h => hv (BitVec.eq_of_toNat_eq h)
    have hn0 : n.toNat ≠ 0 := fun h => hn (BitVec.eq_of_toNat_eq h)
    rw [shiftRight_toNat]
    exact Nat.div_lt_self hv0 (Nat.one_lt_two_pow hn0)
  · apply BitVec.eq_of_toNat_eq
    rw [shiftRight_toNat, Nat.div_eq_of_lt Nat.lt_two_pow_self]
    rfl
  · apply BitVec.eq_of_toNat_eq
    rw [shiftRight_toNat]
    exact Nat.div_one _

/-- A literal of three bits has no bit above bit 2 (R51). -/
theorem literal_getLsbD_of_ge_three {n i : Nat} (hn : n ≤ 7) (hi : 3 ≤ i) : (literal n).getLsbD i = false := by
  have hlt : n < 2 ^ i :=
    calc n < 2 ^ 3 := by omega
      _ ≤ 2 ^ i := Nat.pow_le_pow_right (by omega) hi
  rw [literal, zext64, BitVec.getLsbD_ofNat, Nat.testBit_lt_two_pow hlt, Bool.and_false]

/-- The AND with 7 keeps exactly bits 2 to 0 (R76). -/
theorem and7_getLsbD (v : Word) (i : Nat) : (and7 v).getLsbD i = (decide (i < 3) && v.getLsbD i) := by
  rw [BitVec.getLsbD, and7_toNat]
  exact Nat.testBit_mod_two_pow v.toNat 3 i

/-- Settles O9. -/
theorem bitwiseLaws : Obligations.BitwiseLaws := by
  intro v w
  refine ⟨fun i _ => ?_, BitVec.xor_zero, BitVec.xor_self, ?_, fun n hn i hi => ?_, and7_toNat v, and7_getLsbD v,
    ?_⟩
  · rw [xorWord, BitVec.getLsbD_xor, bne_iff_ne]
  · rw [xorWord, xorWord, BitVec.xor_assoc, BitVec.xor_self, BitVec.xor_zero]
  · rw [xorWord, BitVec.getLsbD_xor, literal_getLsbD_of_ge_three hn hi, Bool.xor_false]
  · rw [trunc3_toNat, and7_toNat, Nat.mod_mod]

end Sys2Proof.Machine

/-! PROOFS. The step in `Running`, branch by branch: the halt test (O23), the ceiling test, and the execution of the
decoded instruction (O22). -/

namespace Sys2Proof.Machine

/-- In `Running` at or past the end of the program a step halts, whatever the ceiling (R67). -/
theorem step_of_len_le {s : State} (hs : s.status = .running) (hl : s.len ≤ s.pc) : step s = .next s.halt := by
  simp only [step, turn, hs, runningTurn, if_pos hl]

/-- In `Running` inside the program a step at the ceiling faults (R68). -/
theorem step_of_ceiling {s : State} (hs : s.status = .running) (hl : s.pc < s.len) (hc : s.ceiling = some s.steps) :
    step s = .next (s.raise .stepCeiling) := by
  have hreached : s.ceilingReached = true := decide_eq_true hc
  simp only [step, turn, hs, runningTurn, if_neg (Nat.not_le.2 hl), if_pos hreached]

/-- In `Running` below the ceiling, the turn at a pair inside the program is that of its decoding (R69, R70). -/
theorem turn_of_pair {s : State} {o p : Elem} (hs : s.status = .running) (hc : s.ceiling ≠ some s.steps)
    (he : s.pc % 2 = 0) (ho : s.readElem s.pc = some o) (hp : s.readElem (s.pc + 1) = some p) :
    turn s = decodeTurn s o p := by
  have hl : s.pc < s.len := by
    rw [State.readElem_eq] at ho
    simpa using (List.getElem?_eq_some_iff.1 ho).1
  have hreached : ¬ s.ceilingReached = true := mt of_decide_eq_true hc
  simp only [turn, hs, runningTurn, if_neg (Nat.not_le.2 hl), if_neg hreached, fetchPair_ok.2 ⟨he, ho, hp⟩]

/-- Settles O22: the turn at the pair executes what it decodes to. -/
theorem stepRunsDecodedInstruction : Obligations.StepRunsDecodedInstruction := by
  intro s o p i hs hc he ho hp hd
  simp only [step, turn_of_pair hs hc he ho hp, decodeTurn, hd]

/-- An effect of an instruction keeps the status or is a fault. -/
theorem Effect.status_cases {s t : State} (h : Effect s t) :
    t.status = s.status ∨ ∃ cause, t.status = .faulted cause := by
  cases h <;> simp

/-- A read of a halted run is allowed (R113). -/
theorem hostRead_of_halted {α : Type} (view : State → α) {s : State} (h : s.status = .halted) :
    hostRead view s = .ok (view s) := by
  have hover : s.status.over = true := by rw [h]; rfl
  exact if_pos hover

@[simp] theorem State.reg_halt (s : State) (r : Reg) : s.halt.reg r = s.reg r := by cases r <;> rfl

/-- Only the halt test answers a halted state (R67). -/
theorem halt_test_of_step_halted {s t : State} (h : step s = .next t) (ht : t.status = .halted) :
    s.status = .running ∧ s.len ≤ s.pc := by
  obtain ⟨hs, hturn⟩ := step_next h
  cases hturn with
  | halted hl => exact ⟨hs, hl⟩
  | ceiling hl hc => cases ht
  | undecoded hl hc he ho hp hd => cases ht
  | executed hl hc he ho hp hd hx =>
    rcases (effect_of_exec hx).status_cases with hst | ⟨cause, hst⟩ <;> simp [hst, hs] at ht

/-- Settles O23. -/
theorem haltTest : Obligations.HaltTest := by
  refine ⟨fun s hs hl => ?_, fun s t => halt_test_of_step_halted, fun n a b c => ?_⟩
  · have hread {α : Type} (view : State → α) : hostRead view s.halt = .ok (view s.halt) :=
      hostRead_of_halted view rfl
    exact ⟨s.halt, step_of_len_le hs hl, rfl, rfl, rfl, rfl, rfl, rfl, rfl, hread _, hread _, hread _,
      fun r => (hread _).trans (by rw [State.reg_halt])⟩
  · exact ⟨_, step_of_len_le (by simp [startStatus, firstViolation, pairsViolation]) (by simp), rfl, rfl, rfl⟩

end Sys2Proof.Machine

/-! PROOFS. With a finite ceiling a run ends (O35): every step of a run in progress ends it or counts one more
instruction, and the count of a run in progress does not pass the ceiling. -/

namespace Sys2Proof.Machine

/-- At an even index inside a program of even length both elements of the pair exist. -/
theorem State.exists_pair {s : State} (heven : s.len % 2 = 0) (hpc : s.pc % 2 = 0) (hl : s.pc < s.len) :
    ∃ o p, s.readElem s.pc = some o ∧ s.readElem (s.pc + 1) = some p := by
  have hlen := s.program_length
  exact ⟨s.program[s.pc], s.program[s.pc + 1], by simp [State.readElem_eq], by simp [State.readElem_eq]⟩

/-- A state has an outcome exactly when its run is over (R78, R115). -/
theorem State.outcome_ne_none_iff (s : State) : s.outcome ≠ none ↔ s.status.over = true := by
  cases h : s.status <;> simp [State.outcome, Status.over, h]

theorem Status.ne_running_of_over {status : Status} (h : status.over = true) : status ≠ .running := by
  rintro rfl
  cases h

/-- Under the invariant a step of a run in progress ends the run with the count kept, or counts one instruction and
goes on. -/
theorem Invariant.step_ends_or_counts {s : State} (h : Invariant s) (hs : s.status = .running) :
    ∃ t, step s = .next t ∧
      ((t.status.over = true ∧ t.steps = s.steps) ∨ (t.status = .running ∧ t.steps = s.steps + 1)) := by
  have hwf := h.runningWF hs
  by_cases hl : s.len ≤ s.pc
  · exact ⟨_, step_of_len_le hs hl, .inl ⟨rfl, rfl⟩⟩
  by_cases hc : s.ceiling = some s.steps
  · exact ⟨_, step_of_ceiling hs (Nat.lt_of_not_le hl) hc, .inl ⟨rfl, rfl⟩⟩
  obtain ⟨o, p, ho, hp⟩ :=
    State.exists_pair (by simpa using hwf.evenLength) h.pcEven (Nat.lt_of_not_le hl)
  obtain ⟨ho7, hp7, -⟩ := hwf.pair_bounds h.pcEven ho hp
  cases hd : decode o.toNat p.toNat with
  | error e => exact absurd hd (decode_ne_error ho7 hp7 e)
  | ok i =>
    obtain ⟨t, ht, -⟩ := exec_effect i s
    refine ⟨t, (stepRunsDecodedInstruction s o p i hs hc h.pcEven ho hp hd).trans ht, ?_⟩
    obtain ⟨hiwf, hlegal⟩ := hwf.decoded_legal h.pcEven ho hp hd
    rcases exec_legal_cases hiwf hlegal ht with hr | ⟨x, -, -, -, rfl⟩
    · exact .inr ⟨hr.status.trans hs, hr.steps⟩
    · exact .inl ⟨rfl, rfl⟩

/-- A run with fewer than `k` instructions left below the ceiling has ended after `k` further steps. -/
theorem runSteps_ends_of_ceiling {n k : Nat} {s : State} (h : Invariant s) (hs : s.status = .running)
    (hn : s.ceiling = some n) (hk : n < s.steps + k) :
    (runSteps k s).outcome ≠ none ∧ (runSteps k s).steps ≤ n := by
  have hle := h.runningCeiling hs n hn
  induction k generalizing s with
  | zero => omega
  | succ k ih =>
    obtain ⟨t, ht, ⟨hover, hsteps⟩ | ⟨hrun, hsteps⟩⟩ := h.step_ends_or_counts hs
    · rw [runSteps_of_next ht, runSteps_of_stopped (Status.ne_running_of_over hover)]
      exact ⟨t.outcome_ne_none_iff.2 hover, by omega⟩
    · rw [runSteps_of_next ht]
      obtain ⟨-, -, -, hceil⟩ := step_keeps ht
      have hinv := stepKeepsInv s t h ht
      have hn' := hceil.trans hn
      exact ih hinv hrun hn' (by omega) (hinv.runningCeiling hrun n hn')

/-- Settles O35: fewer than `n - steps + 1` instructions are left below the ceiling. -/
theorem finiteCeilingRunEnds : Obligations.FiniteCeilingRunEnds :=
  fun _ _ h hs hn => runSteps_ends_of_ceiling h hs hn (by omega)

end Sys2Proof.Machine

/-! PROOFS. The start check finds nothing exactly in the well-formed programs, and what a start leaves (O42). -/

namespace Sys2Proof.Machine

/-- What R49 asks of one pair of elements. -/
def LegalPair (opcode operand : Nat) : Prop :=
  opcode ≤ 7 ∧ operand ≤ 7 ∧ (opcode ∈ Config.comboOpcodes → operand ≤ 6)

/-- `WF` is an even length and a legal pair at every even index (R49). -/
theorem programWF_iff (p : List Elem) :
    ProgramWF p ↔
      p.length % 2 = 0 ∧ ∀ i, i % 2 = 0 → i < p.length → LegalPair (elemValue p i) (elemValue p (i + 1)) :=
  ⟨fun h => ⟨h.evenLength, fun i he hi => ⟨h.opcodes i he hi, h.operands i he hi, h.combos i he hi⟩⟩,
    fun ⟨hlen, h⟩ => ⟨hlen, fun i he hi => (h i he hi).1, fun i he hi => (h i he hi).2.1,
      fun i he hi => (h i he hi).2.2⟩⟩

/-- A program is well-formed when its first pair is legal and the rest is well-formed. -/
theorem programWF_cons_cons (o p : Elem) (rest : List Elem) :
    ProgramWF (o :: p :: rest) ↔ LegalPair o.toNat p.toNat ∧ ProgramWF rest := by
  have htail (i : Nat) : elemValue (o :: p :: rest) (i + 2) = elemValue rest i := rfl
  simp only [programWF_iff, List.length_cons]
  constructor
  · rintro ⟨hlen, h⟩
    exact ⟨h 0 rfl (by omega), by omega, fun i he hi => h (i + 2) (by omega) (by omega)⟩
  · rintro ⟨hpair, hlen, h⟩
    refine ⟨by omega, fun i he hi => ?_⟩
    match i, he, hi with
    | 0, _, _ => exact hpair
    | j + 2, he, hi => exact h j (by omega) (by omega)

/-- The start check passes a pair exactly when it is legal (R65). -/
theorem pairViolation_eq_none_iff (o p i : Nat) : pairViolation o p i = none ↔ LegalPair o p := by
  rcases decode_cases o p with ⟨ho, hd⟩ | ⟨ho, hp, hd⟩ | ⟨ho, hp, instr, hd⟩
  · simp [pairViolation, hd, LegalPair, Nat.not_le.2 ho]
  · simp [pairViolation, hd, LegalPair, Nat.not_le.2 hp]
  · have hill := isIllegal_iff_of_decode hd
    have h6 : p ≠ 7 ↔ p ≤ 6 := by omega
    simp [pairViolation, hd, LegalPair, hill, ho, hp, h6]

/-- On a program of even length the scan of the pairs finds nothing exactly when it is well-formed (R65). -/
theorem pairsViolation_eq_none_iff : ∀ (i : Nat) (p : List Elem), p.length % 2 = 0 →
    (pairsViolation i p = none ↔ ProgramWF p)
  | _, [], _ => iff_of_true rfl (by simp [programWF_iff])
  | _, [_], h => by simp at h
  | i, o :: q :: rest, h => by
    have hpair := pairViolation_eq_none_iff o.toNat q.toNat i
    have hrest := pairsViolation_eq_none_iff (i + 2) rest (by
      simp only [List.length_cons] at h
      omega)
    rw [programWF_cons_cons, ← hpair, ← hrest]
    cases hv : pairViolation o.toNat q.toNat i <;> simp [pairsViolation, hv]

/-- `first_violation` is none exactly for the well-formed programs (R49, R65). -/
theorem firstViolation_eq_none_iff (p : List Elem) : firstViolation p = none ↔ ProgramWF p := by
  rcases Nat.mod_two_eq_zero_or_one p.length with h | h
  · rw [firstViolation, if_neg (by omega), pairsViolation_eq_none_iff 0 p h]
  · have hwf : ¬ ProgramWF p := fun hw => by simp [hw.evenLength] at h
    simp [firstViolation, h, hwf]

/-- Outside `Running`, a start on a loaded program completes (R113). -/
theorem hostStart_of_loaded {s : State} (hs : s.status ≠ .running) (hl : s.loaded = true) (a b c : Word) :
    hostStart a b c s = .next (s.startRun a b c) := by
  simp only [hostStart, if_neg hs, if_pos hl]

/-- A start keeps the program and the parameters (R110). -/
theorem sameProgram_startRun (s : State) (a b c : Word) : SameProgram s (s.startRun a b c) where
  elems := State.readElem_congr rfl rfl
  len := rfl
  loaded := rfl
  ceiling := rfl

/-- Settles O42. -/
theorem startState : Obligations.StartState := by
  intro s a b c hs hl
  refine ⟨_, hostStart_of_loaded hs hl a b c, rfl, rfl, rfl, rfl, rfl, rfl, sameProgram_startRun s a b c, ?_, ?_⟩
  · intro hwf
    rw [State.startRun_status, startStatus, (firstViolation_eq_none_iff _).2 hwf]
  · intro hwf
    obtain ⟨⟨sub, i⟩, hv⟩ := Option.ne_none_iff_exists'.1 (mt (firstViolation_eq_none_iff _).1 hwf)
    exact ⟨sub, i, hv, by rw [State.startRun_status, startStatus, hv]⟩

end Sys2Proof.Machine

/-! PROOFS. The shift instructions (O10, O11, O12): the laws of the shift, of their combo operand's field, and of the
one register each writes. -/

namespace Sys2Proof.Machine

/-- An amount of 64 or more shifts every bit out (R75). -/
theorem shiftRight_of_ge {n : Word} (v : Word) (h : 64 ≤ n.toNat) : shiftRight v n = 0 := by
  obtain ⟨-, hge, -⟩ := logicalShiftLaw.1 v n
  exact hge h

/-- A word shifted by its own value is 0 (R75). -/
theorem shiftRight_self (v : Word) : shiftRight v v = 0 := by
  obtain ⟨-, -, -, -, hself, -⟩ := logicalShiftLaw.1 v v
  exact hself

/-- A shift by 0 changes nothing (R75). -/
theorem shiftRight_zero (v : Word) : shiftRight v 0 = v := by
  obtain ⟨-, -, -, -, -, hzero, -⟩ := logicalShiftLaw.1 v 0
  exact hzero

/-- A zero word stays zero under every shift. -/
theorem shiftRight_of_eq_zero {v : Word} (h : v = 0) (n : Word) : shiftRight v n = 0 := by
  subst h
  apply BitVec.eq_of_toNat_eq
  rw [shiftRight_toNat]
  exact Nat.zero_div _

/-- A shift by a nonzero amount fills bit 63 with 0 (R79). -/
theorem shiftRight_getLsbD_sixtyThree {n : Word} (v : Word) (h : n ≠ 0) : (shiftRight v n).getLsbD 63 = false := by
  have hn : n.toNat ≠ 0 := fun h0 => h (BitVec.eq_of_toNat_eq h0)
  have hlt : v.toNat / 2 ^ n.toNat < 2 ^ 63 :=
    calc v.toNat / 2 ^ n.toNat ≤ v.toNat / 2 ^ 1 :=
          Nat.div_le_div_left (Nat.pow_le_pow_right (by omega) (by omega)) (by omega)
      _ < 2 ^ 63 := by omega
  rw [BitVec.getLsbD, shiftRight_toNat, Nat.testBit_lt_two_pow hlt]

/-- A legal combo operand of 64 or more is a register: a literal is at most 3 (R52). -/
theorem exists_reg_of_combo_ge {src : ComboSrc} {s : State} (hw : src.WellFormed = true)
    (h : 64 ≤ (combo src s).toNat) : ∃ r, src = .reg r := by
  cases src with
  | reg r => exact ⟨r, rfl⟩
  | lit n =>
    have hn : n ≤ 3 := combo_lit_le hw
    have hval : (combo (.lit n) s).toNat = n := zext64_toNat (by omega)
    omega

/-- Under a combo opcode, a field value of 0 to 6 is read as the operand it denotes (R52, R53). -/
theorem withOperand_decodeCombo_of_le_six {k : Nat} (h : k ≤ 6) (mk : ComboSrc → Instr) (illegal : Instr) :
    ∃ src, comboSrc k = some src ∧ withOperand k (decodeCombo mk illegal k) = .ok (mk src) := by
  rcases comboSrc_cases k with ⟨src, hsrc, -, -, -⟩ | ⟨-, h7⟩
  · exact ⟨src, hsrc, by rw [withOperand_of_le (Nat.le_succ_of_le h), decodeCombo, hsrc]⟩
  · omega

/-- A combo opcode with the operand 7 violates the start check at its operand (R57, R65). -/
theorem pairViolation_combo_seven {opcode : Nat} (h : opcode ∈ Config.comboOpcodes) (i : Nat) :
    pairViolation opcode 7 i = some (.comboReserved, i + 1) := by
  obtain ⟨instr, hd, hill⟩ := decode_combo_seven h
  exact pairViolation_of_isIllegal hd hill i

/-- A register that an instruction writes and does not read has no influence on its next state. -/
theorem exec_setReg_of_writesOf {i : Instr} {r : Reg} (hw : writesOf i = some r) (hr : r ∉ readsOf i) (s : State)
    (v : Word) : exec i (s.setReg r v) = exec i s :=
  (unreadRegisterHasNoInfluence i s r v hr).1 hw

/-- Only `SHRC` has the destination C (R17, R81). -/
theorem exists_shrc_of_writesOf {i : Instr} (h : writesOf i = some .C) : ∃ src, i = .shrc src := by
  cases i with
  | shrc src => exact ⟨src, rfl⟩
  | _ => cases h

/-- An instruction that changes C has it as its destination. -/
theorem writesOf_of_c_ne {i : Instr} {s t : State} (h : exec i s = .next t) (hc : t.c ≠ s.c) :
    writesOf i = some .C := by
  obtain ⟨hreg, -⟩ := instructionFrame i s t h
  by_contra hw
  exact hc (hreg .C hw)

/-- A combo operand reads no register but the one it names (R17). -/
theorem notMem_comboReads {src : ComboSrc} {r : Reg} (h : src ≠ .reg r) : r ∉ comboReads src := by
  cases src with
  | lit n => exact List.not_mem_nil
  | reg q =>
    rintro (_ | ⟨_, ⟨⟩⟩)
    exact h rfl

theorem exec_shra (src : ComboSrc) (s : State) :
    exec (.shra src) s = .next (s.setReg .A (shiftRight s.a (combo src s))).advance := exec_of_writesOf rfl s

theorem exec_shrb (src : ComboSrc) (s : State) :
    exec (.shrb src) s = .next (s.setReg .B (shiftRight s.a (combo src s))).advance := exec_of_writesOf rfl s

theorem exec_shrc (src : ComboSrc) (s : State) :
    exec (.shrc src) s = .next (s.setReg .C (shiftRight s.a (combo src s))).advance := exec_of_writesOf rfl s

/-- Settles O10: the value written to A is the quotient of the old A. -/
theorem shraResult : Obligations.ShraResult := by
  refine ⟨fun src s => ⟨_, exec_shra src s, shiftRight_toNat s.a (combo src s), rfl, rfl, rfl, rfl,
    ?_, ?_, fun hge => ⟨shiftRight_of_ge s.a hge, fun hw => exists_reg_of_combo_ge hw hge⟩,
    fun ha => shiftRight_of_eq_zero ha (combo src s), shiftRight_getLsbD_sixtyThree s.a⟩,
    fun k hk => withOperand_decodeCombo_of_le_six hk .shra .illegalShra, pairViolation_combo_seven (by decide)⟩
  · rintro rfl
    exact ⟨shiftRight_zero s.a, rfl⟩
  · rintro rfl
    exact shiftRight_self s.a

/-- Settles O11: the value written to B is the quotient of A, and `SHRB` reads B as its amount only. -/
theorem shrbResult : Obligations.ShrbResult := by
  refine ⟨fun src s => ⟨_, exec_shrb src s, shiftRight_toNat s.a (combo src s), rfl, rfl, rfl, rfl,
    ?_, ?_, shiftRight_of_ge s.a, fun hsrc v => ?_⟩,
    fun k hk => withOperand_decodeCombo_of_le_six hk .shrb .illegalShrb, pairViolation_combo_seven (by decide)⟩
  · rintro rfl
    exact shiftRight_zero s.a
  · rintro rfl
    exact shiftRight_self s.a
  · have hread : Reg.B ∉ readsOf (.shrb src) := List.not_mem_cons_of_ne_of_not_mem nofun (notMem_comboReads hsrc)
    rw [exec_setReg_of_writesOf rfl hread, exec_shrb]

/-- Settles O12: the value written to C is the quotient of A, and `SHRC` alone has the destination C. -/
theorem shrcResult : Obligations.ShrcResult := by
  refine ⟨fun src s => ⟨_, exec_shrc src s, shiftRight_toNat s.a (combo src s), rfl, rfl, rfl, rfl,
    ?_, shiftRight_of_ge s.a⟩,
    fun i s t h hc => exists_shrc_of_writesOf (writesOf_of_c_ne h hc),
    fun k hk => withOperand_decodeCombo_of_le_six hk .shrc .illegalShrc, pairViolation_combo_seven (by decide)⟩
  rintro rfl
  exact shiftRight_zero s.a

end Sys2Proof.Machine

/-! PROOFS. The logic instructions (O13, O14, O15): the laws of the exclusive OR and of the literal operand, and an
operand element of 8 or more. -/

namespace Sys2Proof.Machine

/-- The exclusive OR acts on each bit alone (R76). -/
theorem xorWord_getLsbD (v w : Word) (i : Nat) : (xorWord v w).getLsbD i = (v.getLsbD i ^^ w.getLsbD i) :=
  BitVec.getLsbD_xor

/-- The exclusive OR with 0 changes nothing (R76). -/
theorem xorWord_zero (v : Word) : xorWord v 0 = v := by
  obtain ⟨-, hzero, -⟩ := bitwiseLaws v 0
  exact hzero

/-- The exclusive OR of a word with itself is 0 (R76). -/
theorem xorWord_self (v : Word) : xorWord v v = 0 := by
  obtain ⟨-, -, hself, -⟩ := bitwiseLaws v v
  exact hself

/-- The same exclusive OR twice restores the word (R76). -/
theorem xorWord_xorWord_cancel (v w : Word) : xorWord (xorWord v w) w = v := by
  obtain ⟨-, -, -, hcancel, -⟩ := bitwiseLaws v w
  exact hcancel

/-- Within the word, the bits of a literal are those of its value (R51). -/
theorem literal_getLsbD {i : Nat} (hi : i < 64) (n : Nat) : (literal n).getLsbD i = n.testBit i := by
  rw [literal, zext64, BitVec.getLsbD_ofNat, decide_eq_true hi, Bool.true_and]

/-- The exclusive OR with a literal of three bits keeps the bits above bit 2 (R82). -/
theorem xorWord_literal_div_eight {n : Nat} (h : n ≤ 7) (v : Word) :
    (xorWord v (literal n)).toNat / 8 = v.toNat / 8 := by
  have hval : (literal n).toNat = n := zext64_toNat (by omega)
  calc (xorWord v (literal n)).toNat / 2 ^ 3 = (v.toNat ^^^ n) / 2 ^ 3 := by rw [xorWord, BitVec.toNat_xor, hval]
    _ = v.toNat / 2 ^ 3 ^^^ n / 2 ^ 3 := Nat.xor_div_two_pow
    _ = v.toNat / 2 ^ 3 := by rw [Nat.div_eq_of_lt (Nat.lt_succ_of_le h), Nat.xor_zero]

/-- Under a legal opcode, an operand of 8 or more violates the start check at its own index (R56, R65, D7). -/
theorem pairViolation_of_operand_gt {opcode operand : Nat} (ho : opcode ≤ 7) (hp : 7 < operand) (i : Nat) :
    pairViolation opcode operand i = some (.operandRange, i + 1) :=
  pairViolation_of_error (decode_of_operand_gt ho hp) i

theorem exec_xorl (n : Nat) (s : State) :
    exec (.xorl n) s = .next (s.setReg .B (xorWord s.b (literal n))).advance := exec_of_writesOf rfl s

theorem exec_mod8 (src : ComboSrc) (s : State) :
    exec (.mod8 src) s = .next (s.setReg .B (and7 (combo src s))).advance := exec_of_writesOf rfl s

theorem exec_xorc (n : Nat) (s : State) :
    exec (.xorc n) s = .next (s.setReg .B (xorWord s.b s.c)).advance := exec_of_writesOf rfl s

/-- Settles O13: the value written to B is its exclusive OR with the literal. -/
theorem xorlResult : Obligations.XorlResult := by
  refine ⟨fun n s => ⟨_, exec_xorl n s, fun i hi => ?_, rfl, rfl, rfl, rfl,
    fun hn => xorWord_literal_div_eight hn s.b, ?_, _, exec_xorl n _, xorWord_xorWord_cancel s.b (literal n)⟩,
    fun n hn => withOperand_of_le hn (.xorl n), fun n i hn => pairViolation_of_operand_gt (by decide) hn i⟩
  · rw [← literal_getLsbD hi n]
    exact xorWord_getLsbD s.b (literal n) i
  · rintro rfl
    exact xorWord_zero s.b

/-- Settles O14: the value written to B is the combo value's remainder by 8, and `MOD8` reads no register but its
operand. -/
theorem mod8Result : Obligations.Mod8Result := by
  refine ⟨fun src s => ⟨_, exec_mod8 src s, and7_toNat (combo src s), rfl, rfl, rfl, rfl, ?_, fun hsrc v => ?_⟩,
    fun k hk => withOperand_decodeCombo_of_le_six hk .mod8 .illegalMod8, pairViolation_combo_seven (by decide)⟩
  · rintro n hn rfl
    have hval : (combo (.lit n) s).toNat = n := zext64_toNat (by omega)
    calc (and7 (combo (.lit n) s)).toNat = n % 8 := by rw [and7_toNat, hval]
      _ = n := Nat.mod_eq_of_lt (by omega)
  · have hread : Reg.B ∉ readsOf (.mod8 src) := notMem_comboReads hsrc
    rw [exec_setReg_of_writesOf rfl hread, exec_mod8]

/-- Settles O15: the value written to B is the exclusive OR of B and C, in which the operand does not occur. -/
theorem xorcResult : Obligations.XorcResult := by
  refine ⟨fun n s => ⟨_, exec_xorc n s, fun i _ => xorWord_getLsbD s.b s.c i, rfl, rfl, rfl, rfl,
    fun hc => ?_, fun hbc => ?_, fun m => exec_xorc m s⟩,
    fun n hn => withOperand_of_le hn (.xorc n), fun n i hn => pairViolation_of_operand_gt (by decide) hn i⟩
  · calc xorWord s.b s.c = xorWord s.b 0 := by rw [hc]
      _ = s.b := xorWord_zero s.b
  · calc xorWord s.b s.c = xorWord s.c s.c := by rw [hbc]
      _ = 0 := xorWord_self s.c

end Sys2Proof.Machine

/-! PROOFS. The control transfer (O16): when a jump is taken, and what it leaves. -/

namespace Sys2Proof.Machine

/-- A word is nonzero as soon as one of its bits is set. -/
theorem ne_zero_of_getLsbD {v : Word} (h : ∃ i, v.getLsbD i = true) : v ≠ 0 := by
  rintro rfl
  obtain ⟨i, hi⟩ := h
  exact Bool.false_ne_true (BitVec.getLsbD_zero.symm.trans hi)

/-- Settles O16: the three cases of a jump, in each of which the other two clauses ask for nothing. -/
theorem jnzResult : Obligations.JnzResult := by
  refine ⟨fun x s => ?_, fun x hx => withOperand_of_le hx (.jnz x),
    fun x i hx => pairViolation_of_operand_gt (by decide) hx i⟩
  rcases exec_jnz_cases x s with ⟨ha, he⟩ | ⟨ha, heven, he⟩ | ⟨ha, hodd, he⟩
  · exact ⟨_, he, rfl, rfl, rfl, rfl, fun _ => ⟨rfl, rfl⟩, fun hbit => absurd ha (ne_zero_of_getLsbD hbit),
      fun hbit => absurd ha (ne_zero_of_getLsbD hbit)⟩
  · exact ⟨_, he, rfl, rfl, rfl, rfl, fun h0 => absurd h0 ha, fun _ _ => ⟨rfl, rfl⟩, fun _ hodd => by omega⟩
  · exact ⟨_, he, rfl, rfl, rfl, rfl, fun h0 => absurd h0 ha, fun _ heven => by omega, fun _ _ => rfl⟩

end Sys2Proof.Machine

/-! PROOFS. The output instruction (O17): the value it emits, and that it changes no register an operand could name. -/

namespace Sys2Proof.Machine

/-- The emitted value is the remainder by 8 of the combo value (R76, R88). -/
theorem trunc3_and7_toNat (v : Word) : (trunc3 (and7 v)).toNat = v.toNat % 8 := by
  obtain ⟨-, -, -, -, -, -, -, htrunc⟩ := bitwiseLaws v 0
  exact htrunc

/-- A literal of 0 to 3 is emitted as it is (R52, R88). -/
theorem trunc3_and7_combo_lit {n : Nat} (hn : n ≤ 3) (s : State) : (trunc3 (and7 (combo (.lit n) s))).toNat = n := by
  have hval : (combo (.lit n) s).toNat = n := zext64_toNat (by omega)
  calc (trunc3 (and7 (combo (.lit n) s))).toNat = n % 8 := by rw [trunc3_and7_toNat, hval]
    _ = n := Nat.mod_eq_of_lt (by omega)

/-- A combo operand depends on the registers alone (R52, R71). -/
theorem combo_congr {s t : State} (h : ∀ r, t.reg r = s.reg r) (src : ComboSrc) : combo src t = combo src s := by
  cases src with
  | lit n => rfl
  | reg r => exact h r

/-- An executed `EMIT` leaves the value of every combo operand as it was (R88). -/
theorem combo_append_advance (src : ComboSrc) (s : State) (v : OutVal) :
    combo src (s.append v).advance = combo src s :=
  combo_congr (fun r => (State.reg_advance (s.append v) r).trans (State.reg_append s v r)) src

/-- `EMIT` executed twice appends the same value twice. -/
theorem exec_emit_twice_out (src : ComboSrc) (s : State) :
    ∃ u, exec (.emit src) (s.append (trunc3 (and7 (combo src s)))).advance = .next u ∧
      u.out = s.out ++ [trunc3 (and7 (combo src s)), trunc3 (and7 (combo src s))] :=
  ⟨_, exec_emit src _, by simp [combo_append_advance]⟩

/-- Settles O17: the next state is the old one with one value appended, and a second `EMIT` reads the same operand. -/
theorem emitResult : Obligations.EmitResult := by
  refine ⟨fun src s => ⟨_, exec_emit src s, ⟨_, trunc3_and7_toNat (combo src s), rfl, ?_⟩, List.length_append,
    fun i hi => List.getElem?_append_left hi, rfl, rfl, rfl, rfl, ?_⟩,
    fun k hk => withOperand_decodeCombo_of_le_six hk .emit .illegalEmit, pairViolation_combo_seven (by decide)⟩
  · rintro n hn rfl
    exact trunc3_and7_combo_lit hn s
  · obtain ⟨u, hu, hout⟩ := exec_emit_twice_out src s
    refine ⟨u, hu, fun v hv => ?_⟩
    obtain rfl : trunc3 (and7 (combo src s)) = v := by simpa using hv
    exact hout

end Sys2Proof.Machine

/-! PROOFS. The packed view of the output (O47): it is a number in base 8 whose digits are the values, the first
value least significant. -/

namespace Sys2Proof.Machine

/-- The last octal digit of the view is the first value. -/
theorem outBits_cons_mod_eight (v : OutVal) (vs : List OutVal) : outBits (v :: vs) % 8 = v.toNat := by
  rw [outBits, Nat.add_mul_mod_self_left, Nat.mod_eq_of_lt v.isLt]

/-- The view without its last octal digit is the view of the other values. -/
theorem outBits_cons_div_eight (v : OutVal) (vs : List OutVal) : outBits (v :: vs) / 8 = outBits vs := by
  rw [outBits, Nat.add_mul_div_left _ _ (by decide), Nat.div_eq_of_lt v.isLt, Nat.zero_add]

/-- The octal digits of the view are the values of the output, and 0 past its end (R89). -/
theorem outBits_digit (out : List OutVal) (i : Nat) : outBits out / 8 ^ i % 8 = (out.getD i 0).toNat := by
  induction out generalizing i with
  | nil => simp [outBits]
  | cons v vs ih =>
    cases i with
    | zero =>
      rw [pow_zero, Nat.div_one]
      exact outBits_cons_mod_eight v vs
    | succ i =>
      rw [pow_succ', ← Nat.div_div_eq_div_mul, outBits_cons_div_eight]
      exact ih i

/-- The view is the number whose digits in base 8 are the values. -/
theorem outBits_eq_ofDigits (out : List OutVal) : outBits out = Nat.ofDigits 8 (out.map BitVec.toNat) := by
  induction out with
  | nil => rfl
  | cons v vs ih => rw [outBits, ih, List.map_cons, Nat.ofDigits_cons]

/-- An appended value stands at the digit of the old length, and no other digit moves (R89). -/
theorem outBits_append_singleton (out : List OutVal) (v : OutVal) :
    outBits (out ++ [v]) = outBits out + v.toNat * 8 ^ out.length := by
  simp only [outBits_eq_ofDigits, List.map_append, List.map_singleton, Nat.ofDigits_append, Nat.ofDigits_singleton,
    List.length_map, Nat.mul_comm]

/-- Outputs of one length with the same view have the same value at each position. -/
theorem outBits_injective_of_length {out out' : List OutVal} (hlen : out.length = out'.length)
    (h : outBits out = outBits out') : out = out' := by
  refine List.ext_getElem hlen fun i hi hi' => BitVec.eq_of_toNat_eq ?_
  rw [← List.getD_eq_getElem out 0 hi, ← List.getD_eq_getElem out' 0 hi', ← outBits_digit, h, outBits_digit]

/-- Settles O47. -/
theorem packedOutputView : Obligations.PackedOutputView :=
  ⟨outBits_digit, outBits_append_singleton, fun _ _ => outBits_injective_of_length⟩

end Sys2Proof.Machine

/-! PROOFS. In a run that passed the start check no step raises `MalformedProgram` (O33), a run in progress always has
a next state (O28), and its pc stays even and bounded (O34): the steps of a run under the invariant. -/

namespace Sys2Proof.Machine

/-- Under the invariant a step halts, hits the ceiling, retires an instruction, or takes a misaligned jump: the checks
of R70 find nothing. -/
theorem Invariant.step_cases {s t : State} (h : Invariant s) (hst : step s = .next t) :
    (s.len ≤ s.pc ∧ t = s.halt) ∨ t = s.raise .stepCeiling ∨ Retired s t ∨
      ∃ x, t = s.raise (.misalignedJump s.pc x) := by
  obtain ⟨hs, hturn⟩ := step_next hst
  have hwf := h.runningWF hs
  cases hturn with
  | halted hl => exact .inl ⟨hl, rfl⟩
  | ceiling hl hc => exact .inr (.inl rfl)
  | undecoded hl hc he ho hp hd =>
    obtain ⟨ho7, hp7, -⟩ := hwf.pair_bounds he ho hp
    exact absurd hd (decode_ne_error ho7 hp7 _)
  | executed hl hc he ho hp hd ht =>
    obtain ⟨hiwf, hlegal⟩ := hwf.decoded_legal he ho hp hd
    rcases exec_legal_cases hiwf hlegal ht with hr | ⟨x, -, -, -, rfl⟩
    · exact .inr (.inr (.inl hr))
    · exact .inr (.inr (.inr ⟨x, rfl⟩))

/-- Settles O33: none of the four ways a step ends under the invariant raises that cause. -/
theorem checkedRunNeverMalformed : Obligations.CheckedRunNeverMalformed := by
  intro s t h hst sub i
  rcases h.step_cases hst with ⟨-, rfl⟩ | rfl | hr | ⟨x, rfl⟩
  · simp
  · simp
  · simp [hr.status, (step_next hst).1]
  · simp

/-- Settles O28. -/
theorem runningAlwaysSteps : Obligations.RunningAlwaysSteps := by
  intro s h hs
  obtain ⟨t, ht, -⟩ := h.step_ends_or_counts hs
  exact ⟨t, ht⟩

/-- The pc is within the bound of R19, and at or past the end where the run has halted (R115). -/
def PcBounded (s : State) : Prop :=
  s.pc ≤ max s.len 6 ∧ (s.status = .halted → s.len ≤ s.pc)

/-- A run in progress meets the bound by the invariant. -/
theorem Invariant.pcBounded {s : State} (h : Invariant s) (hs : s.status = .running) : PcBounded s :=
  ⟨h.runningPc hs, by simp [hs]⟩

/-- Under the invariant a step keeps the bound, also where it ends the run. -/
theorem Invariant.step_pcBounded {s t : State} (h : Invariant s) (hst : step s = .next t) : PcBounded t := by
  obtain ⟨hs, -⟩ := step_next hst
  have hpc := h.runningPc hs
  rcases h.step_cases hst with ⟨hl, rfl⟩ | rfl | hr | ⟨x, rfl⟩
  · exact ⟨hpc, fun _ => hl⟩
  · exact ⟨hpc, nofun⟩
  · exact (stepKeepsInv s t h hst).pcBounded (hr.status.trans hs)
  · exact ⟨hpc, nofun⟩

/-- The length of the program is the same all along a run (R44). -/
theorem runSteps_len (s : State) (k : Nat) : (runSteps k s).len = s.len := by
  rw [← State.program_length, runSteps_program, State.program_length]

/-- Settles O34: the invariant and the bound are kept together by every step. -/
theorem pcStaysEvenAndBounded : Obligations.PcStaysEvenAndBounded := by
  intro s k h hs
  obtain ⟨hinv, hle, hend⟩ := runSteps_preserves (P := fun t => Invariant t ∧ PcBounded t)
    (fun ⟨hi, _⟩ hst => ⟨stepKeepsInv _ _ hi hst, hi.step_pcBounded hst⟩) ⟨h, h.pcBounded hs⟩ k
  rw [runSteps_len] at hle hend
  exact ⟨hinv.pcEven, hle, hend⟩

end Sys2Proof.Machine

/-! PROOFS. Every execution counts one step or takes a fault (O20), and where each fault of a step comes from: the
ceiling (O24), a bad pair (O25), a taken jump to an odd target (O26); outside `Running` there is no step (O27). -/

namespace Sys2Proof.Machine

/-- An execution counts one step and keeps the status, or is a taken jump to an odd target or an illegal word, and
changes the status alone. -/
theorem exec_next_cases {i : Instr} {s t : State} (h : exec i s = .next t) :
    (t.steps = s.steps + 1 ∧ t.status = s.status) ∨
    (∃ x, i = .jnz x ∧ x % 2 = 1 ∧ s.a ≠ 0 ∧ t = s.raise (.misalignedJump s.pc x)) ∨
    (i.isIllegal = true ∧ t = raiseComboReserved s) := by
  rcases instr_form_cases i with ⟨r, hr⟩ | ⟨c, rfl⟩ | ⟨x, rfl⟩ | hill
  · cases (exec_of_writesOf hr s).symm.trans h
    exact .inl ⟨by simp, by simp⟩
  · cases h
    exact .inl ⟨rfl, rfl⟩
  · rcases exec_jnz_cases x s with ⟨-, he⟩ | ⟨-, -, he⟩ | ⟨ha, hx, he⟩ <;> cases he.symm.trans h
    · exact .inl ⟨rfl, rfl⟩
    · exact .inl ⟨rfl, rfl⟩
    · exact .inr (.inl ⟨x, rfl, hx, ha, rfl⟩)
  · cases (exec_of_isIllegal hill s).symm.trans h
    exact .inr (.inr ⟨hill, rfl⟩)

/-- Settles O20. -/
theorem executionCountsOrFaults : Obligations.ExecutionCountsOrFaults := by
  intro i s
  obtain ⟨t, ht, -⟩ := exec_effect i s
  refine ⟨t, ht, ?_⟩
  rcases exec_next_cases ht with hcount | ⟨x, hi, hx, ha, rfl⟩ | ⟨hill, rfl⟩
  · exact .inl hcount
  · exact .inr ⟨.inr ⟨x, hi, hx, ha⟩, _, rfl⟩
  · exact .inr ⟨.inl hill, _, rfl⟩

/-- Only the ceiling test raises `StepCeiling` (R95). -/
theorem ceiling_test_of_step_stepCeiling {s t : State} (h : step s = .next t)
    (ht : t.status = .faulted .stepCeiling) :
    s.pc < s.len ∧ s.ceiling = some s.steps ∧ t = s.raise .stepCeiling := by
  obtain ⟨hs, hturn⟩ := step_next h
  cases hturn with
  | halted hl => cases ht
  | ceiling hl hc => exact ⟨hl, hc, rfl⟩
  | undecoded hl hc he ho hp hd => cases ht
  | executed hl hc he ho hp hd hx =>
    rcases exec_next_cases hx with ⟨-, hstatus⟩ | ⟨x, -, -, -, rfl⟩ | ⟨-, rfl⟩
    · cases hs.symm.trans (hstatus.symm.trans ht)
    · cases ht
    · cases ht

/-- Settles O24. -/
theorem ceilingTest : Obligations.CeilingTest :=
  ⟨fun _ => step_of_ceiling, fun _ _ => ceiling_test_of_step_stepCeiling⟩

/-- A step at a pair the decoder rejects raises what the decoder found (R70). -/
theorem step_of_decode_error {s : State} {o p : Elem} {e : DecodeError} (hs : s.status = .running)
    (hc : s.ceiling ≠ some s.steps) (he : s.pc % 2 = 0) (ho : s.readElem s.pc = some o)
    (hp : s.readElem (s.pc + 1) = some p) (hd : decode o.toNat p.toNat = .error e) :
    step s = .next (s.raise (.malformedProgram (decodeViolation e s.pc).1 (decodeViolation e s.pc).2)) := by
  simp only [step, turn_of_pair hs hc he ho hp, decodeTurn, hd]

/-- Settles O25: the decoder rejects the first two kinds of pair, and reads the third as an illegal word. -/
theorem badPairRaises : Obligations.BadPairRaises := by
  intro s o p hs hc he ho hp
  refine ⟨fun h => ?_, fun hle h => ?_, fun hcombo h7 => ?_⟩
  · exact step_of_decode_error hs hc he ho hp (decode_of_opcode_gt h _)
  · exact step_of_decode_error hs hc he ho hp (decode_of_operand_gt hle h)
  · obtain ⟨i, hd, hill⟩ := decode_combo_seven hcombo
    rw [← h7] at hd
    exact (stepRunsDecodedInstruction s o p i hs hc he ho hp hd).trans (exec_of_isIllegal hill s)

/-- Settles O26: only an executed `JNZ` raises the fault, and the decoder reads `JNZ x` from the pair `(3, x)` alone. -/
theorem misalignedJumpOnlyByTakenOddJump : Obligations.MisalignedJumpOnlyByTakenOddJump := by
  intro s t q x h ht
  obtain ⟨hs, hturn⟩ := step_next h
  cases hturn with
  | halted hl => cases ht
  | ceiling hl hc => cases ht
  | undecoded hl hc he ho hp hd => cases ht
  | executed hl hc he ho hp hd hx =>
    rcases exec_next_cases hx with ⟨-, hstatus⟩ | ⟨x', rfl, hodd, ha, rfl⟩ | ⟨-, rfl⟩
    · cases hs.symm.trans (hstatus.symm.trans ht)
    · cases ht
      obtain ⟨-, henc⟩ := wellFormed_and_encode_of_decode hd
      obtain ⟨hop, hoperand⟩ := Prod.mk.inj henc
      exact ⟨rfl, hodd, ha, ho.trans (congrArg some (BitVec.eq_of_toNat_eq hop.symm)), ⟨_, hp, hoperand.symm⟩, rfl⟩
    · cases ht

/-- Settles O27: each status other than `Running` has its own stop. -/
theorem noStepOutsideRunning : Obligations.NoStepOutsideRunning := by
  intro s
  refine ⟨fun h => ?_, fun h => ?_, fun cause h => ?_, fun t h => (step_next h).1⟩ <;> simp only [step, turn, h]

end Sys2Proof.Machine

/-! PROOFS. The invariant holds after reset (O30), with the other values of reset (O31), and `Load` and `Start` keep
it (O32). -/

namespace Sys2Proof.Machine

/-- The reset state meets the invariant: it is idle, so what is asked of a run asks nothing. -/
theorem invariant_resetWith (n : Option Nat) : Invariant (State.resetWith n) where
  memory := rfl
  inside := nofun
  pcEven := rfl
  outBound := Nat.le_refl 0
  idleFields _ := ⟨rfl, rfl, rfl⟩
  startedLoaded h := absurd rfl h
  runningWF := nofun
  runningPc := nofun
  runningCeiling := nofun
  malformedFields := nofun
  misalignedFields := nofun
  ceilingFields := nofun

/-- Settles O30. -/
theorem resetMeetsInv : Obligations.ResetMeetsInv := ⟨invariant_resetWith _, invariant_resetWith⟩

/-- Settles O31: the fields, the start and the step evaluate at the reset state. -/
theorem resetValues : Obligations.ResetValues :=
  fun _ => ⟨rfl, rfl, rfl, rfl, fun _ _ _ => rfl, rfl⟩

/-- A load outside a run keeps the invariant: the memory is that of the program, and no field the status speaks of
changes. -/
theorem Invariant.loadProgram {s : State} (h : Invariant s) (hs : s.status ≠ .running) (p : List Elem) :
    Invariant (s.loadProgram p) where
  memory := Memory.wf_ofElems p
  inside _ hcell := Memory.mem_ofElems hcell
  pcEven := h.pcEven
  outBound := h.outBound
  idleFields := h.idleFields
  startedLoaded _ := rfl
  runningWF e := absurd e hs
  runningPc e := absurd e hs
  runningCeiling e := absurd e hs
  malformedFields := h.malformedFields
  misalignedFields := h.misalignedFields
  ceilingFields := h.ceilingFields

/-- A start puts only a well-formed program in progress (R65, R110). -/
theorem programWF_of_startStatus_running {p : List Elem} (h : startStatus p = .running) : ProgramWF p := by
  cases hv : firstViolation p with
  | none => exact (firstViolation_eq_none_iff p).1 hv
  | some v => simp [startStatus, hv] at h

/-- The only fault of a start is `MalformedProgram` (R65, R110). -/
theorem malformed_of_startStatus_faulted {p : List Elem} {cause : Cause} (h : startStatus p = .faulted cause) :
    ∃ sub i, cause = .malformedProgram sub i := by
  cases hv : firstViolation p with
  | none => simp [startStatus, hv] at h
  | some v =>
    simp only [startStatus, hv, Status.faulted.injEq] at h
    exact ⟨_, _, h.symm⟩

/-- A start on a loaded program makes the invariant hold anew: what remains of the old state is its memory. -/
theorem Invariant.startRun {s : State} (h : Invariant s) (hl : s.loaded = true) (a b c : Word) :
    Invariant (s.startRun a b c) where
  memory := h.memory
  inside := h.inside
  pcEven := rfl
  outBound := Nat.le_refl 0
  idleFields _ := ⟨rfl, rfl, rfl⟩
  startedLoaded _ := hl
  runningWF hrun := programWF_of_startStatus_running hrun
  runningPc _ := Nat.zero_le _
  runningCeiling _ n _ := Nat.zero_le n
  malformedFields _ _ _ := ⟨rfl, rfl, rfl⟩
  misalignedFields _ _ hjump := by
    obtain ⟨_, _, hcause⟩ := malformed_of_startStatus_faulted hjump
    cases hcause
  ceilingFields hceil := by
    obtain ⟨_, _, hcause⟩ := malformed_of_startStatus_faulted hceil
    cases hcause

/-- Settles O32. -/
theorem hostKeepsInv : Obligations.HostKeepsInv := by
  rintro s t h (⟨p, hp⟩ | ⟨a, b, c, hst⟩)
  · obtain ⟨hs, rfl⟩ := hostLoad_next hp
    exact h.loadProgram hs p
  · obtain ⟨-, hl, rfl⟩ := hostStart_next hst
    exact h.startRun hl a b c

end Sys2Proof.Machine

/-! PROOFS. What a load leaves (O43), when the host is refused (O44), and what it may read (O45). -/

namespace Sys2Proof.Machine

/-- Outside `Running` a load completes (R113). -/
theorem hostLoad_of_ne_running {s : State} (h : s.status ≠ .running) (p : List Elem) :
    hostLoad p s = .next (s.loadProgram p) := if_neg h

/-- Settles O43. -/
theorem loadReplacesProgram : Obligations.LoadReplacesProgram := by
  intro p s hs
  exact ⟨_, hostLoad_of_ne_running hs p, s.program_loadProgram p, rfl, rfl, Memory.wf_ofElems p,
    rfl, rfl, rfl, rfl, rfl, rfl, rfl, rfl⟩

/-- While a run is in progress the host cannot start another (R113). -/
theorem hostStart_of_running {s : State} (h : s.status = .running) (a b c : Word) :
    hostStart a b c s = .refused .hostWhileRunning := if_pos h

/-- With no program loaded since reset the host cannot start a run (R113). -/
theorem hostStart_of_not_loaded {s : State} (hs : s.status ≠ .running) (hl : s.loaded = false) (a b c : Word) :
    hostStart a b c s = .refused .noProgramLoaded := by
  simp [hostStart, hs, hl]

/-- Settles O44. -/
theorem hostRefusals : Obligations.HostRefusals :=
  fun _ p a b c => ⟨fun hs => ⟨hostLoad_of_running hs p, hostStart_of_running hs a b c⟩,
    fun hs hl => hostStart_of_not_loaded hs hl a b c⟩

/-- A run is over when it has halted or faulted (R115). -/
theorem Status.over_iff (status : Status) :
    status.over = true ↔ status = .halted ∨ ∃ cause, status = .faulted cause := by
  cases status <;> simp [Status.over]

/-- A run is not over before it starts and while it is in progress. -/
theorem Status.over_eq_false_iff (status : Status) :
    status.over = false ↔ status = .idle ∨ status = .running := by
  cases status <;> simp [Status.over]

/-- Every read of a run that is over is allowed (R113). -/
theorem hostRead_of_over {α : Type} (view : State → α) {s : State} (h : s.status.over = true) :
    hostRead view s = .ok (view s) := if_pos h

/-- Before a run is over no read but that of the status is allowed (R113). -/
theorem hostRead_of_not_over {α : Type} (view : State → α) {s : State} (h : s.status.over = false) :
    hostRead view s = .error .readNotAllowed := if_neg (Bool.eq_false_iff.1 h)

/-- The info read is the cause of a faulted status, and none of any other (R92). -/
theorem Status.eq_faulted_iff (status : Status) (cause : Cause) :
    status = .faulted cause ↔ status.cause = some cause := by
  cases status <;> simp [Status.cause]

/-- Settles O45: every read but that of the status is one view, allowed exactly when the run is over. -/
theorem hostReadsFinishedRunsOnly : Obligations.HostReadsFinishedRunsOnly := by
  intro s
  refine ⟨rfl, fun h => ?_, fun h => ?_⟩
  · have hover := (Status.over_iff _).2 h
    exact ⟨hostRead_of_over _ hover, fun _ => hostRead_of_over _ hover, hostRead_of_over _ hover,
      hostRead_of_over _ hover, _, hostRead_of_over _ hover, s.status.eq_faulted_iff⟩
  · have hover := (Status.over_eq_false_iff _).2 h
    exact ⟨hostRead_of_not_over _ hover, fun _ => hostRead_of_not_over _ hover, hostRead_of_not_over _ hover,
      hostRead_of_not_over _ hover, hostRead_of_not_over _ hover⟩

end Sys2Proof.Machine

/-! PROOFS. The start check and well-formedness (O40), and which violation it reports (O41): the scan passes over legal
pairs and stops at the first that breaks a condition. -/

namespace Sys2Proof.Machine

/-- Settles O40. -/
theorem startCheckIsWellFormedness : Obligations.StartCheckIsWellFormedness := firstViolation_eq_none_iff

/-- The scan from the index `base` on reports the violation of the pair at the even offset `i`, when every pair before
it is legal (R98). -/
theorem pairsViolation_of_legal_before {base i : Nat} {p : List Elem} {v : Malformed × Nat} (hlen : p.length % 2 = 0)
    (he : i % 2 = 0) (hi : i < p.length)
    (hlegal : ∀ j, j % 2 = 0 → j < i → LegalPair (elemValue p j) (elemValue p (j + 1)))
    (hv : pairViolation (elemValue p i) (elemValue p (i + 1)) (base + i) = some v) :
    pairsViolation base p = some v := by
  match p, i with
  | [], _ => exact absurd hi (Nat.not_lt_zero _)
  | [_], _ => simp at hlen
  | o :: q :: rest, 0 =>
    have hfirst : pairViolation o.toNat q.toNat base = some v := hv
    rw [pairsViolation, hfirst]
  | o :: q :: rest, 1 => omega
  | o :: q :: rest, i + 2 =>
    have hfirst : pairViolation o.toNat q.toNat base = none :=
      (pairViolation_eq_none_iff _ _ _).2 (hlegal 0 rfl (by omega))
    simp only [List.length_cons] at hlen hi
    rw [pairsViolation, hfirst]
    refine pairsViolation_of_legal_before (i := i) (by omega) (by omega) (by omega)
      (fun j hj hji => hlegal (j + 2) (by omega) (by omega)) ?_
    rw [Nat.add_assoc, Nat.add_comm 2 i]
    exact hv

/-- Settles O41: the violation reported is that of the first pair that is not legal. -/
theorem firstViolationReported : Obligations.FirstViolationReported := by
  intro p
  refine ⟨fun hodd => if_pos hodd, fun heven i hi hlt hbefore => ?_⟩
  have hreport {v : Malformed × Nat} (hv : pairViolation (elemValue p i) (elemValue p (i + 1)) i = some v) :
      firstViolation p = some v := by
    rw [firstViolation, if_neg (by omega)]
    exact pairsViolation_of_legal_before heven hi hlt hbefore (by rwa [Nat.zero_add])
  refine ⟨fun ho => hreport ?_, fun ho hp => hreport ?_, fun hcombo h7 => hreport ?_⟩
  · exact pairViolation_of_error (decode_of_opcode_gt ho _) i
  · exact pairViolation_of_operand_gt ho hp i
  · rw [h7]
    exact pairViolation_combo_seven hcombo i

end Sys2Proof.Machine

/-! PROOFS. A ceiling only cuts a run short (O36): away from the ceiling, a step does the same with a ceiling and
without one. -/

namespace Sys2Proof.Machine

theorem combo_withCeiling (c : ComboSrc) (s : State) (n : Option Nat) :
    combo c (s.withCeiling n) = combo c s := combo_congr (fun r => by cases r <;> rfl) c

theorem writtenValue_withCeiling (i : Instr) (s : State) (n : Option Nat) :
    writtenValue i (s.withCeiling n) = writtenValue i s := by
  cases i <;> simp only [writtenValue, combo_withCeiling] <;> rfl

/-- No instruction reads or writes the ceiling (R28). -/
theorem exec_withCeiling (i : Instr) (s : State) (n : Option Nat) :
    exec i (s.withCeiling n) = mapNext (fun t => t.withCeiling n) (exec i s) := by
  rcases instr_form_cases i with ⟨r, hr⟩ | ⟨c, rfl⟩ | ⟨x, rfl⟩ | hill
  · rw [exec_of_writesOf hr, exec_of_writesOf hr, writtenValue_withCeiling]
    cases r <;> rfl
  · rw [exec_emit, exec_emit, combo_withCeiling, mapNext]
    rfl
  · rcases exec_jnz_cases x s with ⟨h0, he⟩ | ⟨h0, hx, he⟩ | ⟨h0, hx, he⟩ <;> rw [he]
    · exact exec_jnz_of_zero x h0
    · exact exec_jnz_of_even h0 hx
    · exact exec_jnz_of_odd h0 hx
  · rw [exec_of_isIllegal hill, exec_of_isIllegal hill]
    rfl

/-- Where the fetch stops, the step stops with its fault. -/
theorem step_of_fetch_error {s : State} {f : Fault} (hs : s.status = .running) (hl : s.pc < s.len)
    (hc : s.ceiling ≠ some s.steps) (hf : fetchPair s = .error f) : step s = .fault f := by
  have hreached : ¬ s.ceilingReached = true := mt of_decide_eq_true hc
  simp only [step, turn, hs, runningTurn, if_neg (Nat.not_le.2 hl), if_neg hreached, hf]

/-- Whether the ceiling test of a run in progress cuts it here (R68). -/
def AtCeiling (s : State) : Prop := s.pc < s.len ∧ s.ceiling = some s.steps

/-- Where the ceiling does not cut the run, the step is that of the machine without a ceiling. -/
theorem step_withCeiling_none {s : State} (hs : s.status = .running) (hcut : ¬ AtCeiling s) :
    step (s.withCeiling none) = mapNext (fun t => t.withCeiling none) (step s) := by
  have hs' : (s.withCeiling none).status = .running := hs
  have hc' : (s.withCeiling none).ceiling ≠ some (s.withCeiling none).steps := nofun
  rcases Nat.lt_or_ge s.pc s.len with hl | hl
  · have hc : s.ceiling ≠ some s.steps := fun hc => hcut ⟨hl, hc⟩
    cases hf : fetchPair s with
    | error f =>
      rw [step_of_fetch_error hs hl hc hf, step_of_fetch_error hs' hl hc' hf, mapNext]
    | ok pair =>
      obtain ⟨o, p⟩ := pair
      obtain ⟨he, ho, hp⟩ := fetchPair_ok.1 hf
      cases hd : decode o.toNat p.toNat with
      | error e =>
        rw [step_of_decode_error hs hc he ho hp hd, step_of_decode_error hs' hc' he ho hp hd]
        rfl
      | ok i =>
        rw [stepRunsDecodedInstruction s o p i hs hc he ho hp hd,
          stepRunsDecodedInstruction _ o p i hs' hc' he ho hp hd, exec_withCeiling]
  · rw [step_of_len_le hs hl, step_of_len_le hs' hl]
    rfl

/-- A next state away from the ceiling is a next state without a ceiling. -/
theorem step_next_withCeiling_none {s t : State} (h : step s = .next t) (hcut : ¬ AtCeiling s) :
    step (s.withCeiling none) = .next (t.withCeiling none) := by
  rw [step_withCeiling_none (step_next h).1 hcut, h, mapNext]

/-- A run stands still without a ceiling where it does with one. -/
theorem step_ne_next_withCeiling_none {s : State} (h : ∀ t, step s ≠ .next t) (t : State) :
    step (s.withCeiling none) ≠ .next t := by
  intro hn
  have hs : s.status = .running := (step_next hn).1
  have hcut : ¬ AtCeiling s := fun ⟨hl, hc⟩ => h _ (step_of_ceiling hs hl hc)
  rw [step_withCeiling_none hs hcut] at hn
  cases hst : step s with
  | next u => exact h u hst
  | fault r => simp [hst, mapNext] at hn
  | refused r => simp [hst, mapNext] at hn

/-- At the ceiling the run ends, and stays, with the fault. -/
theorem runSteps_of_atCeiling {s : State} (hs : s.status = .running) (hcut : AtCeiling s) (k : Nat) :
    runSteps (k + 1) s = s.raise .stepCeiling := by
  obtain ⟨hl, hc⟩ := hcut
  rw [runSteps_of_next (step_of_ceiling hs hl hc), runSteps_of_stopped (by simp)]

/-- A run the ceiling has not stopped is, step for step, the run without a ceiling (D4). -/
theorem runSteps_withCeiling_none {k : Nat} {s : State} (h : (runSteps k s).status ≠ .faulted .stepCeiling) :
    runSteps k (s.withCeiling none) = (runSteps k s).withCeiling none := by
  induction k generalizing s with
  | zero => rfl
  | succ k ih =>
    by_cases hn : ∃ t, step s = .next t
    · obtain ⟨t, ht⟩ := hn
      have hcut : ¬ AtCeiling s := fun hcut => h (by rw [runSteps_of_atCeiling (step_next ht).1 hcut]; rfl)
      rw [runSteps_of_next ht] at h ⊢
      rw [runSteps_of_next (step_next_withCeiling_none ht hcut), ih h]
    · have hn' := not_exists.1 hn
      rw [runSteps_of_no_next hn', runSteps_of_no_next (step_ne_next_withCeiling_none hn')]

/-- A run the ceiling has stopped stands in a state the run without a ceiling comes through (R95). -/
theorem exists_runSteps_withCeiling_none {k : Nat} {s : State} (hs : s.status = .running)
    (h : (runSteps k s).status = .faulted .stepCeiling) :
    ∃ j, runSteps j (s.withCeiling none) = ((runSteps k s).withStatus .running).withCeiling none := by
  induction k generalizing s with
  | zero => cases hs.symm.trans h
  | succ k ih =>
    by_cases hcut : AtCeiling s
    · refine ⟨0, ?_⟩
      rw [runSteps_of_atCeiling hs hcut]
      simp only [runSteps, State.withCeiling, State.withStatus, State.raise, hs]
    · by_cases hn : ∃ t, step s = .next t
      · obtain ⟨t, ht⟩ := hn
        rw [runSteps_of_next ht] at h ⊢
        by_cases hrun : t.status = .running
        · obtain ⟨j, hj⟩ := ih hrun h
          exact ⟨j + 1, by rw [runSteps_of_next (step_next_withCeiling_none ht hcut), hj]⟩
        · rw [runSteps_of_stopped hrun] at h
          obtain ⟨hl, hc, -⟩ := ceiling_test_of_step_stepCeiling ht h
          exact absurd ⟨hl, hc⟩ hcut
      · rw [runSteps_of_no_next (not_exists.1 hn)] at h
        cases hs.symm.trans h

/-- A run of `j + m` steps is a run of `j` and, from there, one of `m`. -/
theorem runSteps_add (j m : Nat) (s : State) : runSteps (j + m) s = runSteps m (runSteps j s) := by
  induction j generalizing s with
  | zero => rw [Nat.zero_add, runSteps]
  | succ j ih =>
    by_cases hn : ∃ t, step s = .next t
    · obtain ⟨t, ht⟩ := hn
      rw [Nat.succ_add, runSteps_of_next ht, runSteps_of_next ht, ih]
    · simp only [runSteps_of_no_next (not_exists.1 hn)]

/-- Settles O36: from the state the run was cut in, the output of the run without a ceiling only grows. -/
theorem ceilingOnlyCutsRunShort : Obligations.CeilingOnlyCutsRunShort := by
  intro s k hs
  refine ⟨runSteps_withCeiling_none, fun h => ?_⟩
  obtain ⟨j, hj⟩ := exists_runSteps_withCeiling_none hs h
  refine ⟨j, hj, fun m => ?_⟩
  rw [runSteps_add, hj]
  exact (outputOnlyGrows (((runSteps k s).withStatus .running).withCeiling none) m).1

end Sys2Proof.Machine
